-- ==== Sys2Proof/Word.lean ====
section
/-! DEFINITION. The two word types of the engine's boundary: 32-bit registers and command words
(10_state.md section 3, 30_encoding.md R80) and bytes (20_memory.md R52, R53). -/

namespace Sys2Proof

/-- A 32-bit register or command word; bit `n` has weight `2^n` (10_state.md section 3). -/
abbrev Word := BitVec 32

/-- A byte; bit `j` has weight `2^j` (20_memory.md R53). -/
abbrev Byte := BitVec 8

end Sys2Proof
end

