-- ==== Sys2Proof/Syntax.lean ====
section
/-! DEFINITION. The eight commands (30_encoding.md R83), one constructor per row of the opcode table, and
their textual syntax (R86). -/

namespace Sys2Proof

/-- The engine's commands (30_encoding.md R83). Operands are mathematical integers (R82, 00_scope.md R8);
`Instr.wf` says which of them a command word can hold. -/
inductive Instr where
  /-- THETA, format N (41_step_mappings.md R111). -/
  | theta
  /-- RHO, format N (41_step_mappings.md R114). -/
  | rho
  /-- PI, format N (41_step_mappings.md R115). -/
  | pi
  /-- CHI, format N (41_step_mappings.md R116). -/
  | chi
  /-- IOTA, format I, round index `ir` (41_step_mappings.md R119). -/
  | iota (ir : Int)
  /-- ROUND, format I, round index `ir` (42_round_permutation.md R141). -/
  | round (ir : Int)
  /-- KECCAKP, format U, round count `nr` (42_round_permutation.md R143). -/
  | keccakp (nr : Nat)
  /-- SHAKE128, format N; its lengths are in registers (45_shake128.md R181). -/
  | shake128
deriving DecidableEq, Repr

/-- A permutation command: any of the eight but SHAKE128 (10_state.md R36). -/
def Instr.isPermutation : Instr → Bool
  | .theta => true
  | .rho => true
  | .pi => true
  | .chi => true
  | .iota _ => true
  | .round _ => true
  | .keccakp _ => true
  | .shake128 => false

/-- The pseudo-instruction `KECCAKF b` (30_encoding.md R86): the full round count of width `b`. The spec gives the
expansion for legal `b` only. DESIGN CHOICE, unsafe: for any other `b` the same formula runs with floored division
and floored logarithm (assumption 25). -/
def Instr.keccakf (b : Nat) : Instr := .keccakp (12 + 2 * Nat.log2 (b / 25))

/-- A command as text (30_encoding.md R86): the mnemonic, then for formats I and U a decimal integer. -/
def Instr.text : Instr → String
  | .theta => "THETA"
  | .rho => "RHO"
  | .pi => "PI"
  | .chi => "CHI"
  | .iota ir => "IOTA " ++ toString ir
  | .round ir => "ROUND " ++ toString ir
  | .keccakp nr => "KECCAKP " ++ toString nr
  | .shake128 => "SHAKE128"

end Sys2Proof
end

