-- ==== Sys2Proof/WellFormed.lean ====
section
/-! DEFINITION. Which commands a command word can hold: the operand ranges of 30_encoding.md R80 and R86. -/

namespace Sys2Proof

/-- A round index fits format I (30_encoding.md R80: `-128..127`). -/
def wfIndex (ir : Int) : Bool := decide (-128 ≤ ir) && decide (ir ≤ 127)

/-- A round count fits format U (30_encoding.md R80: `0..255`). -/
def wfCount (nr : Nat) : Bool := decide (nr ≤ 255)

/-- A command whose operand fits its format; any other is an assembly error (30_encoding.md R86). -/
def Instr.wf : Instr → Bool
  | .theta => true
  | .rho => true
  | .pi => true
  | .chi => true
  | .iota ir => wfIndex ir
  | .round ir => wfIndex ir
  | .keccakp nr => wfCount nr
  | .shake128 => true

end Sys2Proof
end

