-- ==== Sys2Proof/Decode.lean ====
section
/-! DEFINITION. The command decoder and encoder (30_encoding.md R80 to R86). Decoding is total: each 32-bit
word is exactly one of the eight commands or a reserved word, rejected by the name of what makes it so (R84). -/

namespace Sys2Proof

/-- Why a word is reserved (30_encoding.md R84). -/
inductive Reserved where
  /-- The `ZERO` field, bits 31:16, is not 0. -/
  | zeroField
  /-- `OP` is not one of 0x01 to 0x07 or 0x10. -/
  | opcode
  /-- A format N command with a non-zero `IMM`. -/
  | immediate
deriving DecidableEq, Repr

/-- `sext_8` (30_encoding.md R82). -/
def sext8 (v : Nat) : Int := if v < 128 then (v : Int) else (v : Int) - 256

/-- `zext_8` (30_encoding.md R82). -/
def zext8 (v : Nat) : Nat := v

/-- The field `ZERO`, bits 31:16 (30_encoding.md R80). -/
def zeroOf (w : Word) : Nat := (w.extractLsb' 16 16).toNat

/-- The field `IMM`, bits 15:8 (30_encoding.md R80). -/
def immOf (w : Word) : Nat := (w.extractLsb' 8 8).toNat

/-- The field `OP`, bits 7:0 (30_encoding.md R80). -/
def opOf (w : Word) : Nat := (w.extractLsb' 0 8).toNat

/-- A format N command: `IMM` must be 0 (30_encoding.md R80, R84). -/
def formatN (i : Instr) (imm : Nat) : Except Reserved Instr :=
  if imm = 0 then .ok i else .error .immediate

/-- The opcode map, on the fields `OP` and `IMM` (30_encoding.md R83). -/
def decodeFields (op imm : Nat) : Except Reserved Instr :=
  match op with
  | 0x01 => formatN .theta imm
  | 0x02 => formatN .rho imm
  | 0x03 => formatN .pi imm
  | 0x04 => formatN .chi imm
  | 0x05 => .ok (.iota (sext8 imm))
  | 0x06 => .ok (.round (sext8 imm))
  | 0x07 => .ok (.keccakp (zext8 imm))
  | 0x10 => formatN .shake128 imm
  | _ => .error .opcode

/-- Decode a command word (30_encoding.md R83, R84). -/
def decode (w : Word) : Except Reserved Instr :=
  if zeroOf w = 0 then decodeFields (opOf w) (immOf w) else .error .zeroField

/-- The word `OP + 256 * (operand mod 256)` (30_encoding.md R86). -/
def assemble (op : Nat) (operand : Int) : Word := BitVec.ofNat 32 (op + 256 * (operand % 256).toNat)

/-- The opcode of a command (30_encoding.md R83). -/
def opcodeOf : Instr → Nat
  | .theta => 0x01
  | .rho => 0x02
  | .pi => 0x03
  | .chi => 0x04
  | .iota _ => 0x05
  | .round _ => 0x06
  | .keccakp _ => 0x07
  | .shake128 => 0x10

/-- The operand a command word holds in `IMM`; 0 in format N (30_encoding.md R80). -/
def operandOf : Instr → Int
  | .theta => 0
  | .rho => 0
  | .pi => 0
  | .chi => 0
  | .iota ir => ir
  | .round ir => ir
  | .keccakp nr => nr
  | .shake128 => 0

/-- Encode a command (30_encoding.md R83, R86). -/
def encode (i : Instr) : Word := assemble (opcodeOf i) (operandOf i)

/-- The assembler: an operand outside its range is an assembly error (30_encoding.md R86). -/
def assembleInstr? (i : Instr) : Option Word := if i.wf then some (encode i) else none

/-- One row of the opcode map (30_encoding.md R83): a word `v` is the row's command iff
`v & mask = pattern`. -/
structure OpcodeRow where
  /-- The column `match`. -/
  pattern : Word
  /-- The column `mask`. -/
  mask : Word
deriving DecidableEq, Repr

/-- The rows of the opcode map in the table's order (30_encoding.md R83). -/
def opcodeRows : List OpcodeRow :=
  [{ pattern := 0x00000001, mask := 0xFFFFFFFF },
   { pattern := 0x00000002, mask := 0xFFFFFFFF },
   { pattern := 0x00000003, mask := 0xFFFFFFFF },
   { pattern := 0x00000004, mask := 0xFFFFFFFF },
   { pattern := 0x00000005, mask := 0xFFFF00FF },
   { pattern := 0x00000006, mask := 0xFFFF00FF },
   { pattern := 0x00000007, mask := 0xFFFF00FF },
   { pattern := 0x00000010, mask := 0xFFFFFFFF }]

/-- The command of a row of `opcodeRows`, given its number and the word's `IMM` (30_encoding.md R83). -/
def rowCommand (row imm : Nat) : Option Instr :=
  match row with
  | 0 => some .theta
  | 1 => some .rho
  | 2 => some .pi
  | 3 => some .chi
  | 4 => some (.iota (sext8 imm))
  | 5 => some (.round (sext8 imm))
  | 6 => some (.keccakp (zext8 imm))
  | 7 => some .shake128
  | _ => none

/-- The command word whose bits are the low `nbits` bits of `w`, every bit above them 0. -/
def tableWord (nbits w : Nat) : Word := BitVec.ofNat 32 (w % 2 ^ nbits)

/-- What the decoder reads from a word given by its number; `none` where the word is reserved. -/
def decodeTableWord (nbits w : Nat) : Option Instr := (decode (tableWord nbits w)).toOption

end Sys2Proof
end

