-- ==== Sys2Proof/Config.lean ====
section
/-! DEFINITION. What an integrator fixes (00_scope.md R6) and the free values: every value the spec leaves
unspecified (93_implementation_defined.md U1, U2, U3, U6). All are opaque and have no body, so no proof
can see which value they take and a theorem holds for every one. -/

namespace Sys2Proof

/-- The open parameters of one engine (00_scope.md R6): natural numbers at most `2^32 - 1`, so 32-bit words. The
model takes them as arguments: they ride beside the state and no step changes them (assumption 7). -/
structure Config.Params where
  /-- `MSGCAP`: the number of bytes of the message memory. -/
  msgCap : Word
  /-- `OUTCAP`: the number of bytes of the output memory. -/
  outCap : Word
deriving DecidableEq, Repr

/-- `MSGCAP` of the engine that `State.reset` describes: open (00_scope.md R6, assumption 7). -/
opaque Config.msgCapWord : Word

/-- `OUTCAP` of the engine that `State.reset` describes: open (00_scope.md R6, assumption 7). -/
opaque Config.outCapWord : Word

/-- FREE VALUE (U1, U3; assumptions 3, 4): the contents of `S` after a reset event and after SHAKE128, by draw. -/
opaque Config.freeS : Nat → BitVec 1600

/-- FREE VALUE (U1; assumption 2): byte `a` of `MSG` while nothing has written it since reset `era`. -/
opaque Config.unwrittenMsg : (era a : Nat) → Byte

/-- FREE VALUE (U1; assumption 2): byte `a` of `OUT` while nothing has written it since reset `era`. -/
opaque Config.unwrittenOut : (era a : Nat) → Byte

/-- FREE VALUE (U2; assumption 5): what a host read of `ST`, `MSG` or `OUT` returns while `BUSY = 1`, by draw. -/
opaque Config.busyRead : Nat → Byte

/-- FREE VALUE (U6; assumption 6): how many host accesses land while a command runs, by draw. -/
opaque Config.busyTurns : Nat → Nat

end Sys2Proof
end

