-- ==== Sys2Proof/Machine/State.lean ====
section
/-! DEFINITION. The machine state (10_state.md R20), the reasons a step can stop, and the state after reset
(10_state.md R35). The model's own fields are marked; they stand for the host's side and index free values. -/

namespace Sys2Proof.Machine

/-- The byte address spaces (20_memory.md R50). `REG` is accessed by words, see `HostAccess`. -/
inductive Space where
  /-- The 200-byte window on `S` (10_state.md R33). -/
  | st
  /-- The message memory (10_state.md R31). -/
  | msg
  /-- The output memory (10_state.md R32). -/
  | out
deriving DecidableEq, Repr

/-- The causes of a fatal fault (60_exceptions.md R201); `Cause.code` gives the numbers. -/
inductive Cause where
  /-- `WIDTH` is not legal when a command starts (R202). -/
  | eWidth
  /-- The command word is reserved (R203). -/
  | eOpcode
  /-- SHAKE128 at a legal width other than 1600 (R204). -/
  | eUnsupported
  /-- `MLEN > MSGCAP` or `DLEN > OUTCAP` (R205). -/
  | eRange
deriving DecidableEq, Repr

/-- The sequencer (10_state.md R30). What it holds inside a command (round index, block counter, accumulator)
is local to that command's meaning, since commands are atomic (20_memory.md R58, assumption 10). -/
inductive Sequencer where
  /-- No command runs; the sequencer holds nothing (10_state.md R30). -/
  | idle
  /-- The command word `cmd` was accepted and has not completed (`BUSY = 1`, 10_state.md R29). `turns` is the
  model's own: how many host accesses still land before it completes (assumption 6). -/
  | running (cmd : Word) (turns : Nat)
deriving DecidableEq, Repr

/-- One access the host makes (20_memory.md R55, R63; 30_encoding.md R86). -/
inductive HostAccess where
  /-- `RegRead(off)`, a whole 32-bit read of space `REG`. -/
  | regRead (off : Nat)
  /-- `RegWrite(off, v)`, a whole 32-bit write of space `REG`. -/
  | regWrite (off : Nat) (v : Word)
  /-- An access of `n` bytes to space `REG`, `n` not 4: the spec gives it no meaning (20_memory.md R55). -/
  | regPart (off n : Nat)
  /-- The `n` byte reads at `a, a+1, ..., a+n-1` (20_memory.md R55); `n = 1` is one byte read. -/
  | read (sp : Space) (a n : Nat)
  /-- The `n` byte writes of the bus word `v` at `a, a+1, ..., a+n-1`, least significant byte first
  (20_memory.md R55); `n = 1` is one byte write. -/
  | write (sp : Space) (a n v : Nat)
  /-- Reads of `STATUS` repeated until one shows `BUSY = 0` (30_encoding.md R86, assumption 9). -/
  | poll
  /-- The reset event (70_reset_and_hazards.md R230). -/
  | reset
deriving DecidableEq, Repr

/-- A byte memory: the bytes written since reset, by address, strictly rising (`Memory.wf`). An address not
listed has not been written (assumption 2). -/
abbrev Memory := List Host.Cell

/-- The state of the engine (10_state.md R20) and, marked, the model's own fields. -/
structure State where
  /-- `S`, the 1600-bit state register; lanes, array and window `ST` are views of it (10_state.md R21 to R23, R33). -/
  S : BitVec 1600
  /-- `WIDTH` (10_state.md R25). -/
  width : Word
  /-- `MLEN` (10_state.md R26). -/
  mlen : Word
  /-- `DLEN` (10_state.md R27). -/
  dlen : Word
  /-- `STATUS.FATAL` (some) and `STATUS.CAUSE` (of what) (10_state.md R29, 60_exceptions.md R208). -/
  fault : Option Cause
  /-- The sequencer's phase; running is `STATUS.BUSY = 1` (10_state.md R29, R30). -/
  seq : Sequencer
  /-- `MSG`, the message memory (10_state.md R31). -/
  msg : Memory
  /-- `OUT`, the output memory (10_state.md R32). -/
  out : Memory
  /-- MODEL'S OWN: the reset that fixed the unwritten contents of `MSG` and `OUT` (assumption 2). -/
  era : Nat
  /-- MODEL'S OWN: how many free values have been drawn (assumption 18). -/
  draws : Nat
  /-- MODEL'S OWN: the accesses the host has yet to make, the next one first (assumption 8). -/
  host : List HostAccess
  /-- MODEL'S OWN: what the host's latest read returned, as a number (assumption 17). -/
  readData : Nat
  /-- CONFIGURATION, not state (10_state.md R37): the engine's open parameters, the same in every state of a run
  (assumption 7). -/
  params : Config.Params
deriving DecidableEq, Repr

/-- Where the MODEL stops with a fault. None is a fault of the engine: those are next states with `FATAL = 1`
(60_exceptions.md R207). -/
inductive Fault where
  /-- Raised by a host access to `REG` at an offset above 0x1F (20_memory.md R51, U4). Safe: the spec gives the
  access no meaning (assumption 12). -/
  | outsideReg (off : Nat)
  /-- Raised by a host access to a byte outside its space: `ST` above 199, `MSG` at or above `MSGCAP`, `OUT` at or
  above `OUTCAP` (20_memory.md R50, R51, U4). Safe: the spec gives the access no meaning (assumption 12). -/
  | outsideSpace (sp : Space) (a : Nat)
deriving DecidableEq, Repr

/-- Where the model refuses. -/
inductive Refusal where
  /-- Raised by an arm of `exec` whose command has no meaning yet. Safe: nothing is claimed of it. -/
  | notModelled (mnemonic : String)
  /-- Raised by a host access to `REG` that is not a whole aligned 32-bit access: `n` bytes at `off`
  (20_memory.md R55, U4). Safe: the spec gives the access no meaning (assumption 12). -/
  | regNotWholeWord (off n : Nat)
deriving DecidableEq, Repr

/-- The state right after reset (10_state.md R35, 70_reset_and_hazards.md R230). DESIGN CHOICE, unsafe:
`S` is 0 where the spec leaves it unspecified (assumption 1). `MSG` and `OUT` list nothing (assumption 2). -/
def State.reset : State where
  S := 0
  width := 1600
  mlen := 0
  dlen := 0
  fault := none
  seq := .idle
  msg := []
  out := []
  era := 0
  draws := 0
  host := []
  readData := 0
  params := { msgCap := Config.msgCapWord, outCap := Config.outCapWord }

end Sys2Proof.Machine
end

