-- ==== Sys2Proof/Machine/Flags.lean ====
section
/-! DEFINITION. `STATUS`, the engine's only flag-like state (10_state.md R29): no command sets a condition
code. -/

namespace Sys2Proof.Machine

/-- The cause codes (60_exceptions.md R201); 5 to 255 are never produced. -/
def Cause.code : Cause → Byte
  | .eWidth => 1
  | .eOpcode => 2
  | .eUnsupported => 3
  | .eRange => 4

/-- `STATUS.BUSY`: 1 from the acceptance of a command until it completes or faults (10_state.md R29). -/
def State.busy (s : State) : Bool :=
  match s.seq with
  | .idle => false
  | .running _ _ => true

/-- `STATUS.FATAL` (10_state.md R29). -/
def State.fatal (s : State) : Bool := s.fault.isSome

/-- `STATUS.CAUSE`: 0 while `FATAL = 0` (10_state.md R29). -/
def State.causeCode (s : State) : Byte :=
  match s.fault with
  | none => 0
  | some c => c.code

/-- The value of `STATUS`: `BUSY` in bit 0, `FATAL` in bit 1, `CAUSE` in bits 15:8, every other bit 0
(10_state.md R29). -/
def State.statusWord (s : State) : Word :=
  (BitVec.ofBool s.busy).setWidth 32 ||| (BitVec.ofBool s.fatal).setWidth 32 <<< 1
    ||| s.causeCode.setWidth 32 <<< 8

end Sys2Proof.Machine
end

