-- ==== Sys2Proof/Machine/Ops.lean ====
section
/-! DEFINITION. The named operations over memory and registers: reading and writing a byte memory, the byte
window on `S`, the end of a command, taking a fault (60_exceptions.md R207) and the reset event, the only way out
of one (60_exceptions.md R208, 70_reset_and_hazards.md R230). -/

namespace Sys2Proof.Machine

/-- The canonical form of a memory: addresses strictly rising from `lo` on. -/
def Memory.wfFrom : Nat → Memory → Bool
  | _, [] => true
  | lo, (a, _) :: m => decide (lo ≤ a) && Memory.wfFrom (a + 1) m

/-- The canonical form of a memory: addresses strictly rising. Every listed byte was written, and an unlisted
address reads as a free value, so no entry can be left out (assumption 2). -/
def Memory.wf (m : Memory) : Bool := Memory.wfFrom 0 m

/-- Every listed address lies below `cap` (10_state.md R31, R32). -/
def Memory.below (cap : Nat) (m : Memory) : Bool := m.all fun c => decide (c.1 < cap)

/-- The byte written at `a`, if one was. -/
def Memory.get? : Memory → Nat → Option Byte
  | [], _ => none
  | (b, v) :: m, a => if b = a then some v else Memory.get? m a

/-- Write byte `v` at `a`, keeping the canonical form. -/
def Memory.set : Memory → Nat → Byte → Memory
  | [], a, v => [(a, v)]
  | (b, u) :: m, a, v =>
    if a < b then (a, v) :: (b, u) :: m
    else if a = b then (a, v) :: m
    else (b, u) :: Memory.set m a v

/-- `MemWrite` (20_memory.md R64): the bytes `vs` at `a, a+1, ...`, in ascending order (R56). -/
def Memory.setAll : Memory → Nat → List Byte → Memory
  | m, _, [] => m
  | m, a, v :: vs => Memory.setAll (Memory.set m a v) (a + 1) vs

/-- `MSGCAP` (10_state.md R31). -/
def State.msgCap (s : State) : Nat := s.params.msgCap.toNat

/-- `OUTCAP` (10_state.md R32). -/
def State.outCap (s : State) : Nat := s.params.outCap.toNat

/-- Byte `a` of `MSG` (10_state.md R31); a free value where nothing was written since reset (U1). -/
def State.msgByte (s : State) (a : Nat) : Byte := (Memory.get? s.msg a).getD (Config.unwrittenMsg s.era a)

/-- Byte `a` of `OUT` (10_state.md R32); a free value where nothing was written since reset (U1). -/
def State.outByte (s : State) (a : Nat) : Byte := (Memory.get? s.out a).getD (Config.unwrittenOut s.era a)

/-- `MemRead(MSG, a, n)` (20_memory.md R64). -/
def State.msgBytes (s : State) (a n : Nat) : List Byte := (List.range n).map fun m => s.msgByte (a + m)

/-- Byte `k` of the window `ST`: bit `j` is `S[8k + j]` (10_state.md R33, 20_memory.md R54). -/
def stByte (S : BitVec 1600) (k : Nat) : Byte := S.extractLsb' (8 * k) 8

/-- Replace byte `k` of the window `ST` (10_state.md R33). -/
def setStByte (S : BitVec 1600) (k : Nat) (v : Byte) : BitVec 1600 :=
  (S &&& ~~~((255 : BitVec 1600) <<< (8 * k))) ||| (v.setWidth 1600 <<< (8 * k))

/-- The end of a command: `BUSY` returns to 0 and the sequencer holds nothing (10_state.md R29, R30). -/
def State.finish (s : State) : State := { s with seq := .idle }

/-- `raise Fatal(cause)` (60_exceptions.md R207): `FATAL <- 1`, `CAUSE <- cause`, `BUSY <- 0`, the command ends
and nothing else changes. -/
def State.raiseFatal (s : State) (c : Cause) : State := { s.finish with fault := some c }

/-- The reset event (70_reset_and_hazards.md R230, R231; 10_state.md R35). `S` and the memories become
unspecified (free values of a new draw and era, assumption 4); the host's side and the parameters stay. -/
def State.resetEvent (s : State) : State :=
  { State.reset with
    S := Config.freeS s.draws
    era := s.draws + 1
    draws := s.draws + 1
    host := s.host
    readData := s.readData
    params := s.params }

end Sys2Proof.Machine
end

