-- ==== Sys2Proof/Machine/Bus.lean ====
section
/-! DEFINITION. The host's accesses (20_memory.md R50 to R59, 10_state.md R25 to R33, 70_reset_and_hazards.md
R230, R231): each is one step, in the order the host makes them (20_memory.md R58 (c)). -/

namespace Sys2Proof.Machine

/-- An access to `REG` that the spec gives no meaning, if it is one (20_memory.md R51, R55, U4). -/
def regStop (off n : Nat) : Option (Host.Outcome State Fault Refusal) :=
  if 0x1F < off then some (.fault (.outsideReg off))
  else if n ≠ 4 ∨ off % 4 ≠ 0 then some (.refused (.regNotWholeWord off n))
  else none

/-- `RegRead(off)` (20_memory.md R51): `CMD` and the reserved offsets read 0. -/
def State.regValue (s : State) (off : Nat) : Word :=
  match off with
  | 0x04 => s.statusWord
  | 0x08 => s.width
  | 0x0C => s.mlen
  | 0x10 => s.dlen
  | _ => 0

/-- A write of `v` to `CMD`: accepted while `BUSY = 0` and `FATAL = 0`, else ignored (10_state.md R28,
60_exceptions.md R206 step 1). From acceptance on `BUSY = 1`; how many host accesses land before the command
completes is a free value (assumption 6). -/
def State.issue (s : State) (v : Word) : State :=
  if s.busy || s.fatal then s
  else { s with seq := .running v (Config.busyTurns s.draws), draws := s.draws + 1 }

/-- `RegWrite(off, v)` (20_memory.md R51, R59): ignored while `BUSY = 1`; `STATUS` and the reserved offsets ignore
writes always. -/
def State.regWrite (s : State) (off : Nat) (v : Word) : State :=
  if s.busy then s
  else
    match off with
    | 0x00 => s.issue v
    | 0x08 => { s with width := v }
    | 0x0C => { s with mlen := v }
    | 0x10 => { s with dlen := v }
    | _ => s

/-- The number of bytes of a space (20_memory.md R50). -/
def State.spaceSize (s : State) : Space → Nat
  | .st => 200
  | .msg => s.msgCap
  | .out => s.outCap

/-- The byte at address `a` of a space (20_memory.md R50). -/
def State.byteAt (s : State) : Space → Nat → Byte
  | .st, a => stByte s.S a
  | .msg, a => s.msgByte a
  | .out, a => s.outByte a

/-- The byte at address `a` of a space becomes `v`. -/
def State.setByte (s : State) (sp : Space) (a : Nat) (v : Byte) : State :=
  match sp with
  | .st => { s with S := setStByte s.S a v }
  | .msg => { s with msg := Memory.set s.msg a v }
  | .out => { s with out := Memory.set s.out a v }

/-- One host read of a byte: its value, or while `BUSY = 1` a free value (20_memory.md R57, R59, U2). -/
def State.readByte (s : State) (sp : Space) (a : Nat) : Byte × State :=
  if s.busy then (Config.busyRead s.draws, { s with draws := s.draws + 1 }) else (s.byteAt sp a, s)

/-- One host write of a byte: ignored while `BUSY = 1` (20_memory.md R59). -/
def State.writeByte (s : State) (sp : Space) (a : Nat) (v : Byte) : State :=
  if s.busy then s else s.setByte sp a v

/-- The `n` byte reads from `a` on, as the bus word whose least significant byte is the one at `a`
(20_memory.md R55). -/
def State.readBytes (sp : Space) : Nat → Nat → State → Nat × State
  | 0, _, s => (0, s)
  | n + 1, a, s =>
    let here := s.readByte sp a
    let above := State.readBytes sp n (a + 1) here.2
    (here.1.toNat + 256 * above.1, above.2)

/-- The `n` byte writes of the bus word `v` from `a` on, least significant byte first (20_memory.md R55). -/
def State.writeBytes (sp : Space) : Nat → Nat → Nat → State → State
  | 0, _, _, s => s
  | n + 1, a, v, s => State.writeBytes sp n (a + 1) (v / 256) (s.writeByte sp a (BitVec.ofNat 8 v))

/-- A byte access outside its space, if one of the `n` bytes at `a` is (20_memory.md R51, U4). -/
def State.spaceStop (s : State) (sp : Space) (a n : Nat) : Option (Host.Outcome State Fault Refusal) :=
  if n ≠ 0 ∧ s.spaceSize sp < a + n then some (.fault (.outsideSpace sp (max a (s.spaceSize sp)))) else none

/-- The host's access `h` is made (20_memory.md R55, R63). A read's value goes to `readData`; it changes nothing
else of the engine (20_memory.md R57). -/
def access (h : HostAccess) (s : State) : Host.Outcome State Fault Refusal :=
  match h with
  | .regRead off => (regStop off 4).getD (.next { s with readData := (s.regValue off).toNat })
  | .regWrite off v => (regStop off 4).getD (.next (s.regWrite off v))
  | .regPart off n => (regStop off n).getD (.refused (.regNotWholeWord off n))
  | .read sp a n =>
    let r := State.readBytes sp n a s
    (s.spaceStop sp a n).getD (.next { r.2 with readData := r.1 })
  | .write sp a n v => (s.spaceStop sp a n).getD (.next (State.writeBytes sp n a v s))
  | .poll => .next { s with readData := s.statusWord.toNat }
  | .reset => .next s.resetEvent

/-- A host access landing while a command runs uses up one of the accesses that land before it completes
(assumption 6). -/
def Sequencer.landed : Sequencer → Sequencer
  | .idle => .idle
  | .running cmd turns => .running cmd (turns - 1)

/-- The host makes its next access; with none left the engine waits (60_exceptions.md R217). -/
def hostTurn (s : State) : Host.Outcome State Fault Refusal :=
  match s.host with
  | [] => .next s
  | h :: rest => access h { s with host := rest, seq := s.seq.landed }

/-- The engine completes its running command next: no host access is left to land first. A host that polls
`STATUS` until `BUSY = 0` waits for just that (assumption 9). -/
def engineNext (host : List HostAccess) (turns : Nat) : Bool :=
  match host with
  | [] => true
  | .poll :: _ => true
  | _ => turns == 0

end Sys2Proof.Machine
end

