-- ==== Sys2Proof/Machine/Operands.lean ====
section
/-! DEFINITION. Where a command's operands come from beyond its word: the width in force and what is derived
from it (00_scope.md R4, 10_state.md R25), and the state array as a view of `S` (10_state.md R21 to R23). -/

namespace Sys2Proof.Machine

/-- The seven legal permutation widths (00_scope.md R4). -/
def legalWidths : List Nat := [25, 50, 100, 200, 400, 800, 1600]

/-- `WIDTH` holds a legal width (10_state.md R25). -/
def State.widthLegal (s : State) : Bool := legalWidths.contains s.width.toNat

/-- The lane size `w = b / 25` (00_scope.md R4). -/
def State.laneSize (s : State) : Nat := s.width.toNat / 25

/-- `l = log2 w`; only applied to a power of two (00_scope.md R4, R8). -/
def laneLog (w : Nat) : Nat := Nat.log2 w

/-- The full round count `12 + 2l` (00_scope.md R4). -/
def fullRounds (w : Nat) : Nat := 12 + 2 * laneLog w

/-- The 25 lanes of a state array, lane number `5y + x` (10_state.md R23). Bit `z` of a lane is `A[x,y,z]`. -/
abbrev Lanes (w : Nat) := List (BitVec w)

/-- Lane `L[x,y]` (10_state.md R23). -/
def Lanes.at {w : Nat} (A : Lanes w) (x y : Nat) : BitVec w := A.getD (5 * y + x) 0

/-- The array whose lane `(x,y)` is `f x y`. -/
def Lanes.build {w : Nat} (f : (x y : Nat) → BitVec w) : Lanes w :=
  (List.range 25).map fun n => f (n % 5) (n / 5)

/-- `to_array(w, S[0..b-1])`: `A[x,y,z] = S[w(5y+x)+z]` (10_state.md R22). -/
def toArray (w : Nat) {n : Nat} (S : BitVec n) : Lanes w :=
  Lanes.build fun x y => S.extractLsb' (w * (5 * y + x)) w

/-- `to_string(w, A)`: lane 0 first, in the low `25w` bits (10_state.md R22). -/
def toSequence (n : Nat) {w : Nat} : Lanes w → BitVec n
  | [] => 0
  | L :: A => L.setWidth n ||| (toSequence n A <<< w)

/-- `S[0..b-1] <- to_string(w, A)`, the bits from `b = 25w` on kept (10_state.md R21). -/
def putArray {w : Nat} (A : Lanes w) (S : BitVec 1600) : BitVec 1600 :=
  ((S >>> (25 * w)) <<< (25 * w)) ||| toSequence 1600 A

end Sys2Proof.Machine
end

