-- ==== Sys2Proof/Machine/StepMappings.lean ====
section
/-! DEFINITION. The five step mappings and their commands (41_step_mappings.md R110 to R119). Each is a pure
function from the old array to the new one (R110 (a), 70_reset_and_hazards.md R234), written on lanes: bit `z` of
a lane is `A[x,y,z]` and moving every bit from `z` to `(z+n) mod w` is a left rotation by `n` (10_state.md R23,
assumption 13). -/

namespace Sys2Proof.Machine

/-- What the seven permutation commands have in common (41_step_mappings.md R110, 42_round_permutation.md R141,
R143): check `WIDTH`, then replace the array on `S[0..b-1]` and nothing else. -/
def State.permute (s : State) (f : (w : Nat) → Lanes w → Lanes w) : Host.Outcome State Fault Refusal :=
  if s.widthLegal then
    .next { s.finish with S := putArray (f s.laneSize (toArray s.laneSize s.S)) s.S }
  else .next (s.raiseFatal .eWidth)

/-- The column parity `C[x]` (R111). -/
def parity {w : Nat} (A : Lanes w) (x : Nat) : BitVec w :=
  A.at x 0 ^^^ A.at x 1 ^^^ A.at x 2 ^^^ A.at x 3 ^^^ A.at x 4

/-- `D[x]`: the parities of the neighbour columns, the one at `x+1` taken at `z-1` (R111). -/
def thetaEffect {w : Nat} (A : Lanes w) (x : Nat) : BitVec w :=
  parity A ((x + 4) % 5) ^^^ (parity A ((x + 1) % 5)).rotateLeft 1

/-- Theta (R111). -/
def thetaMap {w : Nat} (A : Lanes w) : Lanes w := Lanes.build fun x y => A.at x y ^^^ thetaEffect A x

/-- The order in which rho visits the 24 lanes other than `(0,0)`: from `(1,0)`, `(x,y) <- (y, (2x+3y) mod 5)`
(R112). -/
def rhoVisit : Nat → Nat × Nat
  | 0 => (1, 0)
  | t + 1 => ((rhoVisit t).2, (2 * (rhoVisit t).1 + 3 * (rhoVisit t).2) % 5)

/-- The raw rho offsets: the lane visited at step `t` has offset `(t+1)(t+2)/2`, lane `(0,0)` has 0 (R113);
listed by lane number `5y + x` (R114, first table). -/
def rhoOffsets : List Nat :=
  [0, 1, 190, 28, 91,
   36, 300, 6, 55, 276,
   3, 10, 171, 153, 231,
   105, 45, 15, 21, 136,
   210, 66, 253, 120, 78]

/-- `off(x,y)` (R113, R114). -/
def rhoOffset (x y : Nat) : Nat := rhoOffsets.getD (5 * y + x) 0

/-- Rho: each lane rotated towards higher `z` by its offset, reduced mod `w` (R114). -/
def rhoMap {w : Nat} (A : Lanes w) : Lanes w := Lanes.build fun x y => (A.at x y).rotateLeft (rhoOffset x y)

/-- Pi: lane `(x,y)` comes from lane `((x+3y) mod 5, x)` (R115). -/
def piMap {w : Nat} (A : Lanes w) : Lanes w := Lanes.build fun x y => A.at ((x + 3 * y) % 5) x

/-- Chi (R116). -/
def chiMap {w : Nat} (A : Lanes w) : Lanes w :=
  Lanes.build fun x y => A.at x y ^^^ (~~~(A.at ((x + 1) % 5) y) &&& A.at ((x + 2) % 5) y)

/-- One iteration of the `rc` register, read as a byte (R117). -/
def lfsrStep (R : Nat) : Nat := if 128 ≤ R then (2 * R) % 256 ^^^ 0x71 else 2 * R

/-- The `rc` register after `n` iterations from 0x01 (R117). -/
def lfsr : Nat → Nat
  | 0 => 1
  | n + 1 => lfsrStep (lfsr n)

/-- The bit generator `rc(t)`, `t` any integer; at `t mod 255 = 0` the register is not run and the bit is 1 (R117,
70_reset_and_hazards.md R238). -/
def rc (t : Int) : Bool := (lfsr (t % 255).toNat).testBit 0

/-- The round constant `RC(ir)` for lane size `w = 2^l`: bit `2^j - 1` is `rc(j + 7 ir)` for `j = 0..l`, every
other bit 0 (R118). -/
def roundConstant (w : Nat) (ir : Int) : BitVec w :=
  (List.range (laneLog w + 1)).foldr
    (fun (j : Nat) R => (if rc ((j : Int) + 7 * ir) then (1 : BitVec w) <<< (2 ^ j - 1) else 0) ||| R) 0

/-- Iota: the round constant is xor-ed into lane `(0,0)` only (R119). -/
def iotaMap {w : Nat} (ir : Int) (A : Lanes w) : Lanes w :=
  Lanes.build fun x y => if x = 0 ∧ y = 0 then A.at 0 0 ^^^ roundConstant w ir else A.at x y

/-- THETA (R111). -/
def execTheta (s : State) : Host.Outcome State Fault Refusal := s.permute fun _ A => thetaMap A

/-- RHO (R114). -/
def execRho (s : State) : Host.Outcome State Fault Refusal := s.permute fun _ A => rhoMap A

/-- PI (R115). -/
def execPi (s : State) : Host.Outcome State Fault Refusal := s.permute fun _ A => piMap A

/-- CHI (R116). -/
def execChi (s : State) : Host.Outcome State Fault Refusal := s.permute fun _ A => chiMap A

/-- IOTA (R119). -/
def execIota (ir : Int) (s : State) : Host.Outcome State Fault Refusal := s.permute fun _ A => iotaMap ir A

end Sys2Proof.Machine
end

