-- ==== Sys2Proof/Machine/RoundPermutation.lean ====
section
/-! DEFINITION. The round function and the permutation Keccak-p (42_round_permutation.md R140 to R145). -/

namespace Sys2Proof.Machine

/-- The round function `Rnd(A, ir)` (R140). -/
def rnd {w : Nat} (ir : Int) (A : Lanes w) : Lanes w := iotaMap ir (chiMap (piMap (rhoMap (thetaMap A))))

/-- `nr` rounds with the indices `ir, ir+1, ...` in ascending order (R142). -/
def rounds {w : Nat} : Nat → Int → Lanes w → Lanes w
  | 0, _, A => A
  | nr + 1, ir, A => rounds nr (ir + 1) (rnd ir A)

/-- The last `nr` rounds of the schedule: indices `12+2l-nr` to `12+2l-1`, the first one negative when
`nr > 12+2l` (R142, R144). -/
def keccakRounds {w : Nat} (nr : Nat) (A : Lanes w) : Lanes w := rounds nr ((fullRounds w : Int) - nr) A

/-- `KeccakP(b, nr, X)` at lane size `w`, `b = 25w` (R142). -/
def keccakP (w nr : Nat) {b : Nat} (X : BitVec b) : BitVec b := toSequence b (keccakRounds nr (toArray w X))

/-- ROUND (R141). -/
def execRound (ir : Int) (s : State) : Host.Outcome State Fault Refusal := s.permute fun _ A => rnd ir A

/-- KECCAKP (R143). -/
def execKeccakp (nr : Nat) (s : State) : Host.Outcome State Fault Refusal := s.permute fun _ A => keccakRounds nr A

end Sys2Proof.Machine
end

