-- ==== Sys2Proof/Machine/BitBuffer.lean ====
section
/-! DEFINITION. Bit sequences and their conversions (00_scope.md R7, 40_bit_buffer.md R100 to R104). A bit
sequence is a `List Bool`, position 0 first. -/

namespace Sys2Proof.Machine

/-- The number whose bit of weight `2^i` is the bit at position `i` (20_memory.md R53). -/
def bitsVal : List Bool → Nat
  | [] => 0
  | b :: X => b.toNat + 2 * bitsVal X

/-- The `n`-bit register whose bit `i` is `X[i]`, and 0 from `len(X)` on. -/
def ofBits (n : Nat) (X : List Bool) : BitVec n := BitVec.ofNat n (bitsVal X)

/-- The sequence `S[0..r-1]` (00_scope.md R7). -/
def bitsFrom {n : Nat} (r : Nat) (S : BitVec n) : List Bool := (List.range r).map S.getLsbD

/-- `bits_of(B)`: `X[8i+j]` is bit `j` of `B[i]` (40_bit_buffer.md R100). -/
def bitsOf (B : List Byte) : List Bool := B.flatMap (bitsFrom 8)

/-- The first `n` bytes of a bit sequence: byte `k` is the sum of `X[8k+j] * 2^j` (40_bit_buffer.md R101). -/
def packBytes : Nat → List Bool → List Byte
  | 0, _ => []
  | n + 1, X => ofBits 8 (X.take 8) :: packBytes n (X.drop 8)

/-- `bytes_of(X)`, defined on lengths that are multiples of 8 only (40_bit_buffer.md R101, R103). -/
def bytesOf (X : List Bool) : Option (List Byte) :=
  if X.length % 8 = 0 then some (packBytes (X.length / 8) X) else none

/-- A lowercase hexadecimal digit (40_bit_buffer.md R102). -/
def hexDigit (v : Nat) : Char := "0123456789abcdef".toList.getD v '0'

/-- A byte as two digits, high digit first (40_bit_buffer.md R102). -/
def hexByte (b : Byte) : List Char := [hexDigit (b.toNat / 16), hexDigit (b.toNat % 16)]

/-- `hex_of(X)`, the host-side rendering, defined on multiples of 8 only (40_bit_buffer.md R102, R103). -/
def hexOf (X : List Bool) : Option (List Char) := (bytesOf X).map fun B => B.flatMap hexByte

end Sys2Proof.Machine
end

