-- ==== Sys2Proof/Machine/Sponge.lean ====
section
/-! DEFINITION. The padding rule pad10*1 (43_padding.md R150, R151) and the sponge construction (44_sponge.md
R160 to R168), generic in the function `f`, the padding rule and the rate `r`. -/

namespace Sys2Proof.Machine

/-- `j = (-m-2) mod r`, the floored modulus (43_padding.md R150). -/
def padZeros (r m : Nat) : Nat := ((-(m : Int) - 2) % (r : Int)).toNat

/-- `pad(r, m) = 1 || 0^j || 1` (43_padding.md R150). -/
def pad (r m : Nat) : List Bool := true :: (List.replicate (padZeros r m) false ++ [true])

/-- The blocks `P_0, ..., P_(n-1)` of `r` bits (44_sponge.md R161). -/
def blocksOf (r : Nat) : Nat → List Bool → List (List Bool)
  | 0, _ => []
  | n + 1, P => P.take r :: blocksOf r n (P.drop r)

/-- `S <- f(S xor (P_i || 0^c))`: the block goes to the first `r` bits (44_sponge.md R161, R168). -/
def absorbBlock {b : Nat} (f : BitVec b → BitVec b) (S : BitVec b) (P : List Bool) : BitVec b := f (S ^^^ ofBits b P)

/-- Absorb the padded sequence `P` from the all-zero state (44_sponge.md R161). -/
def absorbPadded {b : Nat} (f : BitVec b → BitVec b) (r : Nat) (P : List Bool) : BitVec b :=
  (blocksOf r (P.length / r) P).foldl (absorbBlock f) 0

/-- Absorb `N` (44_sponge.md R161). -/
def absorb {b : Nat} (f : BitVec b → BitVec b) (padding : Nat → Nat → List Bool) (r : Nat) (N : List Bool) :
    BitVec b :=
  absorbPadded f r (N ++ padding r N.length)

/-- The squeeze loop with at most `k` appends: append `S[0..r-1]`, stop once `d` bits are there, else apply `f`
(44_sponge.md R162). `missing` is how many of the `d` bits the accumulator still lacks. -/
def squeezeLoop {b : Nat} (f : BitVec b → BitVec b) (r : Nat) : Nat → Nat → BitVec b → List Bool
  | 0, _, _ => []
  | k + 1, missing, S =>
    bitsFrom r S ++ (if missing ≤ r then [] else squeezeLoop f r k (missing - r) (f S))

/-- Squeeze `d` bits from `S` (44_sponge.md R162). `d + 1` appends always suffice, since each adds `r ≥ 1` bits. -/
def squeeze {b : Nat} (f : BitVec b → BitVec b) (r d : Nat) (S : BitVec b) : List Bool :=
  (squeezeLoop f r (d + 1) d S).take d

/-- `Sponge(f, pad, r, N, d)` (44_sponge.md R163). -/
def sponge {b : Nat} (f : BitVec b → BitVec b) (padding : Nat → Nat → List Bool) (r : Nat) (N : List Bool) (d : Nat) :
    List Bool :=
  squeeze f r d (absorb f padding r N)

end Sys2Proof.Machine
end

