-- ==== Sys2Proof/Machine/Shake128.lean ====
section
/-! DEFINITION. The SHAKE128 function and command (45_shake128.md R180 to R187). -/

namespace Sys2Proof.Machine

/-- The rate `r = 1344` (00_scope.md R5, 45_shake128.md R180). -/
def shakeRate : Nat := 1344

/-- `f(X) = KeccakP(1600, 24, X)` (45_shake128.md R180). -/
def keccakF (X : BitVec 1600) : BitVec 1600 := keccakP 64 24 X

/-- The domain-separation suffix `1111` (45_shake128.md R180). -/
def shakeSuffix : List Bool := [true, true, true, true]

/-- `SHAKE128(M, d)` (45_shake128.md R180). -/
def shake128 (M : List Bool) (d : Nat) : List Bool := sponge keccakF pad shakeRate (M ++ shakeSuffix) d

/-- The digest bytes of SHAKE128 for the `mlen` bytes of `MSG` and `dlen` output bytes (45_shake128.md R181). -/
def State.digest (s : State) (mlen dlen : Nat) : List Byte :=
  packBytes dlen (shake128 (bitsOf (s.msgBytes 0 mlen)) (8 * dlen))

/-- The lengths exceed the memories (60_exceptions.md R205). -/
def State.outOfRange (s : State) : Bool :=
  decide (s.msgCap < s.mlen.toNat) || decide (s.outCap < s.dlen.toNat)

/-- What SHAKE128 leaves once its checks have passed: the digest in `OUT[0..DLEN-1]`, `S` unspecified (a free
value, assumption 3), everything else as it was (45_shake128.md R181, R184). -/
def State.shakeDone (s : State) : State :=
  { s.finish with
    out := Memory.setAll s.out 0 (s.digest s.mlen.toNat s.dlen.toNat)
    S := Config.freeS s.draws
    draws := s.draws + 1 }

/-- SHAKE128 (45_shake128.md R181): the checks in the order of 60_exceptions.md R206, all before any effect. -/
def execShake128 (s : State) : Host.Outcome State Fault Refusal :=
  if ¬ s.widthLegal then .next (s.raiseFatal .eWidth)
  else if s.width.toNat ≠ 1600 then .next (s.raiseFatal .eUnsupported)
  else if s.outOfRange then .next (s.raiseFatal .eRange)
  else .next s.shakeDone

end Sys2Proof.Machine
end

