-- ==== Sys2Proof/Machine/Engine.lean ====
section
/-! DEFINITION. The engine's turn: an accepted command word is decoded and executed to completion (10_state.md
R28, 20_memory.md R58, R61). -/

namespace Sys2Proof.Machine

/-- The accepted word `w` is decoded and executed; a reserved word faults with `E_OPCODE` (30_encoding.md R84,
60_exceptions.md R203). -/
def runWord (w : Word) (s : State) : Host.Outcome State Fault Refusal :=
  match decode w with
  | .ok i => exec i s
  | .error _ => .next (s.raiseFatal .eOpcode)

/-- One step of engine and host together (20_memory.md R58): the engine completes its command, or the host makes
its next access. -/
def turn (s : State) : Host.Outcome State Fault Refusal :=
  match s.seq with
  | .idle => hostTurn s
  | .running w turns => if engineNext s.host turns then runWord w s else hostTurn s

/-- `s` with the command word `w` accepted and the engine next to move (assumption 11): a command runs only while
`FATAL = 0`, so a fault is cleared. -/
def State.accepted (s : State) (w : Word) : State := { s with seq := .running w 0, fault := none }

end Sys2Proof.Machine
end

