-- ==== Sys2Proof/Machine/Step.lean ====
section
/-! DEFINITION. One step of the machine, and a state about to run a given command word. -/

namespace Sys2Proof.Machine

/-- One step (20_memory.md R58): one host access, or one command run to completion. -/
def step (s : State) : Host.Outcome State Fault Refusal := turn s

/-- `s` about to run the command word whose low `nbits` bits are those of `w` (assumption 11). -/
def State.withFetchWord (s : State) (nbits w : Nat) : State := s.accepted (tableWord nbits w)

end Sys2Proof.Machine
end

