-- ==== Sys2Proof/Machine/Script.lean ====
section
/-! DEFINITION. The host script notation (30_encoding.md R86): each line as the accesses it stands for. -/

namespace Sys2Proof.Machine

/-- The registers a script names, with their offsets (20_memory.md R51). -/
inductive Reg where
  /-- `CMD`. -/
  | cmd
  /-- `STATUS`. -/
  | status
  /-- `WIDTH`. -/
  | width
  /-- `MLEN`. -/
  | mlen
  /-- `DLEN`. -/
  | dlen
deriving DecidableEq, Repr

/-- The byte offset of a register (20_memory.md R51). -/
def Reg.offset : Reg → Nat
  | .cmd => 0x00
  | .status => 0x04
  | .width => 0x08
  | .mlen => 0x0C
  | .dlen => 0x10

/-- `wr REG, v`. The spec has this line for `WIDTH`, `MLEN`, `DLEN`. DESIGN CHOICE, safe: for `CMD` and `STATUS` it is
the same register write (assumption 26). -/
def scriptWr (r : Reg) (v : Word) : List HostAccess := [.regWrite r.offset v]

/-- `rd REG`. -/
def scriptRd (r : Reg) : List HostAccess := [.regRead r.offset]

/-- `wrb SPACE[a], v`. -/
def scriptWrb (sp : Space) (a : Nat) (v : Byte) : List HostAccess := [.write sp a 1 v.toNat]

/-- `rdb SPACE[a]`. -/
def scriptRdb (sp : Space) (a : Nat) : List HostAccess := [.read sp a 1]

/-- `fill SPACE[a..e], v`. -/
def scriptFill (sp : Space) (a e : Nat) (v : Byte) : List HostAccess :=
  (List.range (e + 1 - a)).flatMap fun k => scriptWrb sp (a + k) v

/-- `put SPACE[a], h`, `h` given by its bytes. -/
def scriptPut (sp : Space) : Nat → List Byte → List HostAccess
  | _, [] => []
  | a, v :: vs => scriptWrb sp a v ++ scriptPut sp (a + 1) vs

/-- `cmd <command>`: write the word to `CMD`, then poll `STATUS` until `BUSY = 0`. An operand out of range is an
assembly error (30_encoding.md R86), so the spec gives such a line no word. DESIGN CHOICE, unsafe: `scriptCmd` does
not make that check and writes `encode i`, the operand taken mod 256 (assumption 26). -/
def scriptCmd (i : Instr) : List HostAccess := [.regWrite Reg.cmd.offset (encode i), .poll]

/-- `reset`. -/
def scriptReset : List HostAccess := [.reset]

end Sys2Proof.Machine
end

