-- ==== Sys2Proof/Safety.lean ====
section
/-! DEFINITION. What a safe run is, and the terms the claims are stated in: the invariant of the machine, the host
accesses the spec gives a meaning, runs of several steps, and the spec's own bit-level and byte-level views that
the lane-wise model is held to. -/

namespace Sys2Proof.Machine

/-- The invariant: what holds at reset and every step keeps. -/
structure State.Inv (s : State) : Prop where
  /-- `BUSY` and `FATAL` are never both 1 (10_state.md R29). -/
  busy_not_fatal : s.busy = true → s.fatal = false
  /-- `MSG` keeps its canonical form. -/
  msg_wf : Memory.wf s.msg = true
  /-- `MSG` lists no address at or above `MSGCAP` (10_state.md R31). -/
  msg_below : Memory.below s.msgCap s.msg = true
  /-- `OUT` keeps its canonical form. -/
  out_wf : Memory.wf s.out = true
  /-- `OUT` lists no address at or above `OUTCAP` (10_state.md R32). -/
  out_below : Memory.below s.outCap s.out = true
  /-- The unwritten contents come from a reset that has happened (assumption 2). -/
  era_drawn : s.era ≤ s.draws

/-- The host access `h` has a meaning in the spec (20_memory.md R51, R55): all others are U4. -/
def HostAccess.legal (s : State) : HostAccess → Bool
  | .regRead off => decide (off ≤ 0x1F) && decide (off % 4 = 0)
  | .regWrite off _ => decide (off ≤ 0x1F) && decide (off % 4 = 0)
  | .regPart _ _ => false
  | .read sp a n => decide (a + n ≤ s.spaceSize sp)
  | .write sp a n _ => decide (a + n ≤ s.spaceSize sp)
  | .poll => true
  | .reset => true

/-- Every access the host has yet to make has a meaning in the spec. -/
def State.hostLegal (s : State) : Bool := s.host.all (HostAccess.legal s)

/-- The step is a host access: the engine is idle, or the host moves while a command runs (20_memory.md R58). -/
def State.hostMoves (s : State) : Bool :=
  match s.seq with
  | .idle => true
  | .running _ turns => !engineNext s.host turns

/-- `k` steps, stopping at the first fault or refusal. -/
def runSteps : Nat → State → Host.Outcome State Fault Refusal
  | 0, s => .next s
  | k + 1, s =>
    match step s with
    | .next t => runSteps k t
    | .fault r => .fault r
    | .refused r => .refused r

/-- `i` and then whatever `k` does from the state it leaves. -/
def execThen (i : Instr) (k : State → Host.Outcome State Fault Refusal) (s : State) :
    Host.Outcome State Fault Refusal :=
  match exec i s with
  | .next t => k t
  | .fault r => .fault r
  | .refused r => .refused r

/-- `a mod n`, the floored modulus, also for negative `a` (00_scope.md R8). -/
def imod (a : Int) (n : Nat) : Nat := (a % (n : Int)).toNat

/-- `WIDTH` is legal and its lane size is `w` (00_scope.md R4). -/
abbrev State.atWidth (s : State) (w : Nat) : Prop :=
  w ∈ [1, 2, 4, 8, 16, 32, 64] ∧ s.width.toNat = 25 * w

/-- From `s` to `t` a command ended and nothing changed but `S[0..b-1]`, `b = 25w` (10_state.md R21, R36). -/
def onlyActive (w : Nat) (s t : State) : Prop :=
  t = { s with S := t.S, seq := .idle } ∧ ∀ i, 25 * w ≤ i → t.S.getLsbD i = s.S.getLsbD i

/-- The bit `A[x,y,z]` of the array at lane size `w`: `S[w(5y+x)+z]` (10_state.md R22). -/
def bitA (w : Nat) (S : BitVec 1600) (x y z : Nat) : Bool := S.getLsbD (w * (5 * y + x) + z)

/-- The column parity bit `C[x,z]` (41_step_mappings.md R111). -/
def bitC (w : Nat) (S : BitVec 1600) (x z : Nat) : Bool :=
  bitA w S x 0 z ^^ bitA w S x 1 z ^^ bitA w S x 2 z ^^ bitA w S x 3 z ^^ bitA w S x 4 z

/-- One iteration of the `rc` register as the spec writes it, on eight bits (41_step_mappings.md R117): shift in a
0 at the front, xor the bit that falls out into positions 0, 4, 5, 6. -/
def rcRegisterStep (R : List Bool) : List Bool :=
  let out := R.getD 7 false
  [out, R.getD 0 false, R.getD 1 false, R.getD 2 false, R.getD 3 false ^^ out, R.getD 4 false ^^ out,
    R.getD 5 false ^^ out, R.getD 6 false]

/-- The `rc` register after `n` iterations from `1,0,0,0,0,0,0,0` (41_step_mappings.md R117). -/
def rcRegister : Nat → List Bool
  | 0 => [true, false, false, false, false, false, false, false]
  | n + 1 => rcRegisterStep (rcRegister n)

/-- Byte `k` of block `i` of the padded message, stated on bytes (45_shake128.md R182): message bytes, then 0x1F,
then zeros, and 0x80 xor-ed into the last byte of the last block. -/
def shakeBlockByte (message : Nat → Byte) (mlen i k : Nat) : Byte :=
  let last : Byte := if i = mlen / 168 ∧ k = 167 then 0x80 else 0
  let a := 168 * i + k
  (if a < mlen then message a else if a = mlen then 0x1F else 0) ^^^ last

/-- `ST[k] <- ST[k] xor block[k]` for `k` in 0..167 (45_shake128.md R182). -/
def xorBlock (block : Nat → Byte) (S : BitVec 1600) : BitVec 1600 :=
  (List.range 168).foldl (fun S k => setStByte S k (stByte S k ^^^ block k)) S

/-- `n` applications of `KECCAKP 24` at width 1600, the function `f` of SHAKE128 (45_shake128.md R180, R182). -/
def keccakTimes : Nat → BitVec 1600 → BitVec 1600
  | 0, S => S
  | n + 1, S => keccakTimes n (keccakF S)

/-- The state after the first `n` blocks are absorbed, stated on bytes (45_shake128.md R182). -/
def absorbedBytes (message : Nat → Byte) (mlen : Nat) : Nat → BitVec 1600
  | 0 => 0
  | n + 1 => keccakF (xorBlock (shakeBlockByte message mlen n) (absorbedBytes message mlen n))

/-- Output byte `k`, stated on bytes (45_shake128.md R182): byte `k mod 168` of `ST` after `floor(k/168)` further
permutations. -/
def shakeOutByte (message : Nat → Byte) (mlen k : Nat) : Byte :=
  stByte (keccakTimes (k / 168) (absorbedBytes message mlen (mlen / 168 + 1))) (k % 168)

end Sys2Proof.Machine
end

