-- ==== Sys2Proof/Certificates/Slice0/Obligations.lean ====
section
/-! DEFINITION. The statements for the provers, in the order of OBLIGATIONS.json. Each docstring names the rule it
formalises. -/

open Sys2Proof Sys2Proof.Machine

/-! ### Encoding -/

/-- 30_encoding.md R80, R82, R83, R86: no bit of an encoding is dropped. -/
def Obligations.DecodeOfEncodeIsTheCommand : Prop :=
  ∀ i : Instr, i.wf = true → decode (encode i) = .ok i

/-- 30_encoding.md R83, R84, R86: every command word is the assembled word of the command it decodes to. -/
def Obligations.EncodeOfDecodeIsTheWord : Prop :=
  ∀ (v : Word) (i : Instr), decode v = .ok i → i.wf = true ∧ encode i = v

/-- 30_encoding.md R83: a word is the command of a row iff it matches the row, and the rows are disjoint. -/
def Obligations.WordIsCommandOfRowIffItMatches : Prop :=
  opcodeRows.map (fun r => (r.pattern, r.mask)) =
    [(0x00000001, 0xFFFFFFFF), (0x00000002, 0xFFFFFFFF), (0x00000003, 0xFFFFFFFF), (0x00000004, 0xFFFFFFFF),
     (0x00000005, 0xFFFF00FF), (0x00000006, 0xFFFF00FF), (0x00000007, 0xFFFF00FF), (0x00000010, 0xFFFFFFFF)] ∧
  (∀ (v : Word) (i : Instr), decode v = .ok i ↔
    ∃ k row, opcodeRows[k]? = some row ∧ v &&& row.mask = row.pattern ∧ rowCommand k (immOf v) = some i) ∧
  (∀ (v : Word) (k m : Nat) (r q : OpcodeRow), opcodeRows[k]? = some r → opcodeRows[m]? = some q →
    v &&& r.mask = r.pattern → v &&& q.mask = q.pattern → k = m)

/-- 30_encoding.md R84: exactly which words are reserved, and by which name they are rejected; the three
names and their order are the model's. -/
def Obligations.ReservedWordsAreRejectedByName : Prop :=
  ∀ v : Word,
    (decode v = .error .zeroField ↔ zeroOf v ≠ 0) ∧
    (decode v = .error .opcode ↔ zeroOf v = 0 ∧ opOf v ∉ [1, 2, 3, 4, 5, 6, 7, 16]) ∧
    (decode v = .error .immediate ↔ zeroOf v = 0 ∧ opOf v ∈ [1, 2, 3, 4, 16] ∧ immOf v ≠ 0)

/-- 30_encoding.md R84: there are 773 legal command words. -/
def Obligations.LegalCommandWordsNumber773 : Prop :=
  ∃ L : List Word, L.length = 773 ∧ L.Nodup ∧ ∀ v : Word, v ∈ L ↔ ∃ i, decode v = .ok i

/-- 30_encoding.md R86: the example words of the spec, and 95_test_vectors.md V-DEC-4, V-DEC-5. -/
def Obligations.ExampleWordsDecode : Prop :=
  decode 0x00000001 = .ok .theta ∧ decode 0x00000002 = .ok .rho ∧ decode 0x00000003 = .ok .pi ∧
  decode 0x00000004 = .ok .chi ∧ decode 0x0000FF05 = .ok (.iota (-1)) ∧ decode 0x00001706 = .ok (.round 23) ∧
  decode 0x00008006 = .ok (.round (-128)) ∧ decode 0x00007F06 = .ok (.round 127) ∧
  decode 0x00001807 = .ok (.keccakp 24) ∧ decode 0x00000010 = .ok .shake128 ∧
  [25, 50, 100, 200, 400, 800, 1600].map Instr.keccakf = [12, 14, 16, 18, 20, 22, 24].map Instr.keccakp

/-! ### The step mappings -/

/-- 41_step_mappings.md R111, with the frame of R110 (c). -/
def Obligations.ThetaAddsColumnParities : Prop :=
  decode 0x00000001 = .ok .theta ∧
  ∀ (s : State) (w : Nat), s.atWidth w → ∃ t, exec .theta s = .next t ∧ onlyActive w s t ∧
    ∀ x y : Nat, x < 5 → y < 5 → ∀ z : Nat, z < w → bitA w t.S x y z =
      (bitA w s.S x y z ^^
        (bitC w s.S (imod ((x : Int) - 1) 5) z ^^ bitC w s.S (imod ((x : Int) + 1) 5) (imod ((z : Int) - 1) w)))

/-- 41_step_mappings.md R112, R113, R114: the lane visited at step `k` is rotated by `(k+1)(k+2)/2`, lane `(0,0)`
not at all, and the visits reach every other lane exactly once. -/
def Obligations.RhoRotatesVisitedLanesByTriangularNumbers : Prop :=
  decode 0x00000002 = .ok .rho ∧
  (rhoVisit 0 = (1, 0) ∧ (∀ k, rhoVisit (k + 1) = ((rhoVisit k).2, (2 * (rhoVisit k).1 + 3 * (rhoVisit k).2) % 5)) ∧
    rhoVisit 24 = (1, 0)) ∧
  (∀ x y : Nat, x < 5 → y < 5 → (x, y) ≠ (0, 0) → ∃ k < 24, rhoVisit k = (x, y) ∧ ∀ m < 24, rhoVisit m = (x, y) →
      m = k) ∧
  (∀ k : Nat, k < 24 → (rhoVisit k).1 < 5 ∧ (rhoVisit k).2 < 5 ∧ rhoVisit k ≠ (0, 0)) ∧
  ∀ (s : State) (w : Nat), s.atWidth w → ∃ t, exec .rho s = .next t ∧ onlyActive w s t ∧
    (∀ z : Nat, z < w → bitA w t.S 0 0 z = bitA w s.S 0 0 z) ∧
    ∀ k : Nat, k < 24 → ∀ z : Nat, z < w → bitA w t.S (rhoVisit k).1 (rhoVisit k).2 z =
      bitA w s.S (rhoVisit k).1 (rhoVisit k).2 (imod ((z : Int) - ((k + 1) * (k + 2) / 2 : Nat)) w)

/-- 41_step_mappings.md R115; the second clause is its inverse form: old lane `(x,y)` goes to `(y, (2x+3y) mod 5)`. -/
def Obligations.PiMovesLanes : Prop :=
  decode 0x00000003 = .ok .pi ∧
  ∀ (s : State) (w : Nat), s.atWidth w → ∃ t, exec .pi s = .next t ∧ onlyActive w s t ∧
    (∀ x y : Nat, x < 5 → y < 5 → ∀ z : Nat, z < w → bitA w t.S x y z = bitA w s.S (imod ((x : Int) + 3 * y) 5) x z) ∧
    ∀ x y : Nat, x < 5 → y < 5 → ∀ z : Nat, z < w → bitA w t.S y (imod (2 * (x : Int) + 3 * y) 5) z = bitA w s.S x y z

/-- 41_step_mappings.md R116. -/
def Obligations.ChiMixesRows : Prop :=
  decode 0x00000004 = .ok .chi ∧
  ∀ (s : State) (w : Nat), s.atWidth w → ∃ t, exec .chi s = .next t ∧ onlyActive w s t ∧
    ∀ x y : Nat, x < 5 → y < 5 → ∀ z : Nat, z < w → bitA w t.S x y z =
      (bitA w s.S x y z ^^
        ((bitA w s.S (imod ((x : Int) + 1) 5) y z ^^ true) && bitA w s.S (imod ((x : Int) + 2) 5) y z))

/-- 41_step_mappings.md R119: lane `(0,0)` takes the round constant, every other lane stays, for every index. -/
def Obligations.IotaAddsRoundConstantToLaneZero : Prop :=
  (∀ imm : Byte, decode (BitVec.ofNat 32 (0x05 + 256 * imm.toNat)) = .ok (.iota imm.toInt)) ∧
  ∀ (s : State) (w : Nat) (ir : Int), s.atWidth w → ∃ t, exec (.iota ir) s = .next t ∧ onlyActive w s t ∧
    (∀ z : Nat, z < w → bitA w t.S 0 0 z = (bitA w s.S 0 0 z ^^ (roundConstant w ir).getLsbD z)) ∧
    ∀ x y : Nat, x < 5 → y < 5 → (x, y) ≠ (0, 0) → ∀ z : Nat, z < w → bitA w t.S x y z = bitA w s.S x y z

/-- 41_step_mappings.md R119, corner cases: the same index twice restores the array. -/
def Obligations.IotaTwiceRestoresTheState : Prop :=
  ∀ (s : State) (w : Nat) (ir : Int), s.atWidth w →
    execThen (.iota ir) (exec (.iota ir)) s = .next { s with seq := .idle }

/-- 41_step_mappings.md R117: `rc(t)` is the first bit of the spec's eight-bit register after `t mod 255`
iterations, 1 at every multiple of 255, and has period 255. -/
def Obligations.RcIsTheRegisterOutput : Prop :=
  ∀ t : Int, rc t = (rcRegister (imod t 255)).getD 0 false ∧ (imod t 255 = 0 → rc t = true) ∧ rc (t + 255) = rc t

/-- 41_step_mappings.md R118: the bits of the round constant, its truncation to a narrower lane, its period. -/
def Obligations.RoundConstantHasRcBits : Prop :=
  ∀ (l : Nat) (ir : Int), l ≤ 6 →
    (∀ j ≤ l, (roundConstant (2 ^ l) ir).getLsbD (2 ^ j - 1) = rc (j + 7 * ir)) ∧
    (∀ z, (∀ j ≤ l, z ≠ 2 ^ j - 1) → (roundConstant (2 ^ l) ir).getLsbD z = false) ∧
    (∀ z : Nat, z < 2 ^ l → (roundConstant (2 ^ l) ir).getLsbD z = (roundConstant 64 ir).getLsbD z) ∧
    roundConstant (2 ^ l) (ir + 255) = roundConstant (2 ^ l) ir

/-! ### Round and permutation -/

/-- 42_round_permutation.md R140, R141: ROUND is the five commands in their fixed order. -/
def Obligations.RoundIsTheFiveStepsInOrder : Prop :=
  (∀ imm : Byte, decode (BitVec.ofNat 32 (0x06 + 256 * imm.toNat)) = .ok (.round imm.toInt)) ∧
  ∀ (s : State) (w : Nat) (ir : Int), s.atWidth w → ∃ t, exec (.round ir) s = .next t ∧ onlyActive w s t ∧
    execThen .theta (execThen .rho (execThen .pi (execThen .chi (exec (.iota ir))))) s = .next t

/-- 42_round_permutation.md R142, R143, R144: KECCAKP 0 leaves `S`; KECCAKP `n+1` is round `12+2l-(n+1)` and then
KECCAKP `n`, so the last `nr` rounds of the schedule in ascending order, also for negative indices. -/
def Obligations.KeccakpRunsTheLastRounds : Prop :=
  (∀ imm : Byte, decode (BitVec.ofNat 32 (0x07 + 256 * imm.toNat)) = .ok (.keccakp imm.toNat)) ∧
  ∀ (s : State) (l : Nat), l ≤ 6 → s.atWidth (2 ^ l) →
    exec (.keccakp 0) s = .next { s with seq := .idle } ∧
    ∀ n : Nat, ∃ t, exec (.keccakp (n + 1)) s = .next t ∧ onlyActive (2 ^ l) s t ∧
      execThen (.round (12 + 2 * (l : Int) - (n + 1))) (exec (.keccakp n)) s = .next t

/-- 10_state.md R21: a permutation command neither reads nor writes `S[b..1599]`. -/
def Obligations.PermutationsNeitherReadNorWriteInactiveBits : Prop :=
  ∀ (i : Instr) (s s' : State) (w : Nat), i.isPermutation = true → s.atWidth w → s'.atWidth w →
    (∀ k < 25 * w, s.S.getLsbD k = s'.S.getLsbD k) →
    ∃ t t', exec i s = .next t ∧ exec i s' = .next t' ∧ (∀ k < 25 * w, t.S.getLsbD k = t'.S.getLsbD k) ∧
      (∀ k, 25 * w ≤ k → t.S.getLsbD k = s.S.getLsbD k) ∧ ∀ k, 25 * w ≤ k → t'.S.getLsbD k = s'.S.getLsbD k

/-- 10_state.md R22: the array is a view of `S`, the map of indices is a bijection, and `to_string` undoes
`to_array`. -/
def Obligations.ArrayIsAViewOfTheStateBits : Prop :=
  ∀ (w : Nat) (X : BitVec 1600), w ∈ [1, 2, 4, 8, 16, 32, 64] →
    (∀ x y : Nat, x < 5 → y < 5 → ∀ z : Nat, z < w → ((toArray w X).at x y).getLsbD z =
        X.getLsbD (w * (5 * y + x) + z) ∧
      w * (5 * y + x) + z < 25 * w ∧ (w * (5 * y + x) + z) % w = z ∧ (w * (5 * y + x) + z) / w % 5 = x ∧
      (w * (5 * y + x) + z) / w / 5 = y) ∧
    (∀ i < 25 * w, i % w < w ∧ i / w % 5 < 5 ∧ i / w / 5 < 5 ∧ w * (5 * (i / w / 5) + i / w % 5) + i % w = i) ∧
    ∀ i, (toSequence 1600 (toArray w X)).getLsbD i = (decide (i < 25 * w) && X.getLsbD i)

/-! ### Bit buffer, padding, sponge -/

/-- 40_bit_buffer.md R100, R101, R103: the bits of bytes, the bytes of bits, each the inverse of the other, and no
bytes for a length that is no multiple of 8. -/
def Obligations.BitsAndBytesAreInverse : Prop :=
  (∀ B : List Byte, (bitsOf B).length = 8 * B.length ∧ bytesOf (bitsOf B) = some B ∧
    ∀ i b, B[i]? = some b → ∀ j < 8, (bitsOf B)[8 * i + j]? = some (b.getLsbD j)) ∧
  (∀ X : List Bool, X.length % 8 = 0 → ∃ B, bytesOf X = some B ∧ B.length = X.length / 8 ∧ bitsOf B = X ∧
    ∀ k b, B[k]? = some b →
      b.toNat = ((List.range 8).map fun j => (X.getD (8 * k + j) false).toNat * 2 ^ j).sum) ∧
  ∀ X : List Bool, X.length % 8 ≠ 0 → bytesOf X = none

/-- 40_bit_buffer.md R102, R104: the text of a byte sequence is its bytes in order, two lowercase digits each. -/
def Obligations.HexTextReproducesTheBytes : Prop :=
  ∀ B : List Byte, hexOf (bitsOf B) =
    some (B.flatMap fun b => [Nat.digitChar (b.toNat / 16), Nat.digitChar (b.toNat % 16)])

/-- 43_padding.md R150, R151: the padding and its properties for every rate and length. -/
def Obligations.PaddingFillsToAMultipleOfTheRate : Prop :=
  ∀ r m : Nat, 0 < r → ∃ j, j = imod (-(m : Int) - 2) r ∧ j < r ∧
    pad r m = true :: (List.replicate j false ++ [true]) ∧ (m + (pad r m).length) % r = 0 ∧
    (m + (pad r m).length) / r = (m + 1) / r + 1 ∧ (m % r + 2 = r → j = 0) ∧ (m % r + 1 = r → j = r - 1) ∧
    (m % r = 0 → 2 ≤ r → j = r - 2)

/-- 44_sponge.md R161: absorbing is the iteration over the blocks of the padded input, from the all-zero state, the
block xor-ed into the first `r` bits and `f` applied after every block. -/
def Obligations.AbsorbIteratesOverTheBlocks : Prop :=
  ∀ (b r : Nat) (f : BitVec b → BitVec b) (N : List Bool), 0 < r → r < b →
    ∃ n, 1 ≤ n ∧ (N ++ pad r N.length).length = n * r ∧ ∃ st : Nat → BitVec b, st 0 = 0 ∧ st n = absorb f pad r N ∧
      ∀ i < n, ∃ X, st (i + 1) = f X ∧ ∀ k < b, X.getLsbD k =
        ((st i).getLsbD k ^^ (decide (k < r) && (N ++ pad r N.length).getD (i * r + k) false))

/-- 44_sponge.md R162: output bit `k` is bit `k mod r` of the state after `floor(k/r)` applications of `f`, and
exactly `d` bits come out. -/
def Obligations.SqueezeAppliesTheFunctionBetweenAppends : Prop :=
  ∀ (b r d : Nat) (f : BitVec b → BitVec b) (S : BitVec b), 0 < r → (squeeze f r d S).length = d ∧
    ∀ k < d, (squeeze f r d S)[k]? = some ((f^[k / r] S).getLsbD (k % r))

/-- 44_sponge.md R166: a shorter output is the prefix of a longer one. -/
def Obligations.ShorterSpongeOutputIsAPrefix : Prop :=
  ∀ (b r d e : Nat) (f : BitVec b → BitVec b) (padding : Nat → Nat → List Bool) (N : List Bool), 0 < r → d ≤ e →
    sponge f padding r N d = (sponge f padding r N e).take d

/-! ### SHAKE128 -/

/-- 45_shake128.md R181, R184: the digest bytes, and what stays. `S` is left open: nothing is said of `t.S`. -/
def Obligations.ShakeWritesTheDigest : Prop :=
  decode 0x00000010 = .ok .shake128 ∧
  ∀ s : State, s.width.toNat = 1600 → s.mlen.toNat ≤ s.msgCap → s.dlen.toNat ≤ s.outCap →
    ∃ t, exec .shake128 s = .next t ∧ t = { s with S := t.S, out := t.out, draws := t.draws, seq := .idle } ∧
      (∀ k < s.dlen.toNat, ∀ j < 8, (t.outByte k).getLsbD j =
        (sponge (b := 1600) (keccakP 64 24) pad 1344
          (bitsOf ((List.range s.mlen.toNat).map s.msgByte) ++ [true, true, true, true])
          (8 * s.dlen.toNat)).getD (8 * k + j) false) ∧
      (∀ k, s.dlen.toNat ≤ k → t.outByte k = s.outByte k) ∧ t.busy = false ∧ (s.fatal = false → t.statusWord = 0)

/-- 45_shake128.md R182: the same stated on bytes: 168-byte blocks, 0x1F and 0x80, KECCAKP 24 on the window. -/
def Obligations.ShakeEqualsItsByteForm : Prop :=
  ∀ s : State, s.width.toNat = 1600 → s.mlen.toNat ≤ s.msgCap → s.dlen.toNat ≤ s.outCap →
    ∃ t, exec .shake128 s = .next t ∧
      ∀ k < s.dlen.toNat, t.outByte k = shakeOutByte s.msgByte s.mlen.toNat k

/-- 45_shake128.md R182: the function `f` of the byte form is the command KECCAKP 24 at width 1600. -/
def Obligations.KeccakTimesIsKeccakpTwentyFour : Prop :=
  ∀ (s : State) (n : Nat), s.width.toNat = 1600 →
    ∃ t, exec (.keccakp 24) s = .next t ∧ t.width = s.width ∧ keccakTimes (n + 1) s.S = keccakTimes n t.S

/-- 45_shake128.md R185 (g), (h), R186; 10_state.md R36: the output depends on the message bytes alone, not on `S`,
`OUT` or bytes beyond the message, and a shorter output is the prefix of a longer one. -/
def Obligations.ShakeOutputDependsOnTheMessageAlone : Prop :=
  ∀ s s' : State, s.width.toNat = 1600 → s'.width.toNat = 1600 → s.mlen = s'.mlen → s.dlen.toNat ≤ s'.dlen.toNat →
    s.mlen.toNat ≤ s.msgCap → s'.mlen.toNat ≤ s'.msgCap → s.dlen.toNat ≤ s.outCap → s'.dlen.toNat ≤ s'.outCap →
    (∀ a < s.mlen.toNat, s.msgByte a = s'.msgByte a) →
    ∃ t t', exec .shake128 s = .next t ∧ exec .shake128 s' = .next t' ∧
      ∀ k < s.dlen.toNat, t.outByte k = t'.outByte k

/-! ### Faults -/

/-- 60_exceptions.md R202, 41_step_mappings.md R110: an illegal width faults every command and changes nothing
else; writing one is no fault. -/
def Obligations.IllegalWidthFaultsEveryCommand : Prop :=
  (∀ (i : Instr) (s : State), s.width.toNat ∉ [25, 50, 100, 200, 400, 800, 1600] →
    exec i s = .next { s with fault := some .eWidth, seq := .idle }) ∧
  ∀ (s : State) (v : Word) (rest : List HostAccess), s.seq = .idle → s.host = .regWrite 0x08 v :: rest →
    step s = .next { s with width := v, host := rest }

/-- 60_exceptions.md R203: a word that matches no row faults with `E_OPCODE`, once accepted and, in the second
clause, from the write to `CMD` on, for a host that then polls. That the fault is the very next step is the model's
choice of when an accepted word runs (assumptions 6 and 9), not the rule's. -/
def Obligations.WordMatchingNoRowFaults : Prop :=
  (∀ (s : State) (v : Word) (n : Nat), s.seq = .running v n → s.hostMoves = false →
    (∀ row ∈ opcodeRows, v &&& row.mask ≠ row.pattern) →
    step s = .next { s with fault := some .eOpcode, seq := .idle }) ∧
  ∀ (s : State) (v : Word) (rest : List HostAccess), s.busy = false → s.fatal = false →
    (∀ row ∈ opcodeRows, v &&& row.mask ≠ row.pattern) → s.host = .regWrite 0x00 v :: .poll :: rest →
    ∃ t, step s = .next t ∧ step t = .next { s with
      fault := some .eOpcode
      host := .poll :: rest
      draws := s.draws + 1 }

/-- 60_exceptions.md R204. -/
def Obligations.ShakeAtANarrowWidthFaults : Prop :=
  ∀ s : State, s.width.toNat ∈ [25, 50, 100, 200, 400, 800] →
    exec .shake128 s = .next { s with fault := some .eUnsupported, seq := .idle }

/-- 60_exceptions.md R205: the bounds are inclusive. -/
def Obligations.ShakeBeyondTheMemoriesFaults : Prop :=
  ∀ s : State, s.width.toNat = 1600 →
    (s.msgCap < s.mlen.toNat ∨ s.outCap < s.dlen.toNat →
      exec .shake128 s = .next { s with fault := some .eRange, seq := .idle }) ∧
    (s.mlen.toNat ≤ s.msgCap ∧ s.dlen.toNat ≤ s.outCap → ∃ t, exec .shake128 s = .next t ∧ t.fault = s.fault)

/-- 60_exceptions.md R206: the checks and their order; each clause puts no condition on the later checks. -/
def Obligations.ChecksAreMadeInTheFixedOrder : Prop :=
  (∀ (s : State) (v : Word) (rest : List HostAccess), s.hostMoves = true → s.host = .regWrite 0x00 v :: rest →
    s.fatal = true ∨ s.busy = true → step s = .next { s with host := rest, seq := s.seq.landed }) ∧
  ∀ (s : State) (v : Word) (n : Nat), s.seq = .running v n → s.hostMoves = false →
    (∀ e, decode v = .error e → step s = .next { s with fault := some .eOpcode, seq := .idle }) ∧
    (∀ i, decode v = .ok i → (∀ w, ¬ s.atWidth w) → step s = .next { s with fault := some .eWidth, seq := .idle }) ∧
    (∀ w, decode v = .ok .shake128 → s.atWidth w → w ≠ 64 →
      step s = .next { s with fault := some .eUnsupported, seq := .idle }) ∧
    (decode v = .ok .shake128 → s.atWidth 64 → s.msgCap < s.mlen.toNat ∨ s.outCap < s.dlen.toNat →
      step s = .next { s with fault := some .eRange, seq := .idle }) ∧
    (∀ i w, decode v = .ok i → s.atWidth w →
      (i = .shake128 → w = 64 ∧ s.mlen.toNat ≤ s.msgCap ∧ s.dlen.toNat ≤ s.outCap) →
      ∃ t, step s = .next t ∧ t.fault = s.fault)

/-- 60_exceptions.md R207: taking a fault sets the two status fields, ends the command and changes nothing else. -/
def Obligations.FaultChangesStatusAlone : Prop :=
  ∀ s t : State, s.hostMoves = false → step s = .next t → t.fault ≠ s.fault →
    ∃ c, t = { s with fault := some c, seq := .idle } ∧ t.busy = false ∧ t.fatal = true ∧
      t.causeCode = c.code ∧ t.statusWord.toNat = 256 * c.code.toNat + 2

/-- 60_exceptions.md R208: nothing but reset clears `FATAL`; commands are ignored, the cause is kept, every other
host access still does what it does. -/
def Obligations.OnlyResetClearsAFault : Prop :=
  ∀ (s : State) (c : Cause) (h : HostAccess) (rest : List HostAccess), s.fault = some c → s.seq = .idle →
    s.host = h :: rest → HostAccess.legal s h = true → ∃ t, step s = .next t ∧ t.seq = .idle ∧ t.host = rest ∧
      (h ≠ .reset → t.fault = some c) ∧ (h = .reset → t.fault = none) ∧
      (∀ v, h = .regWrite 0x00 v → t = { s with host := rest }) ∧
      (∀ v, h = .regWrite 0x08 v → t = { s with width := v, host := rest }) ∧
      (∀ v, h = .regWrite 0x0C v → t = { s with mlen := v, host := rest }) ∧
      (∀ v, h = .regWrite 0x10 v → t = { s with dlen := v, host := rest }) ∧
      (∀ sp a v, h = .write sp a 1 v → t.byteAt sp a = BitVec.ofNat 8 v) ∧
      (∀ sp a, h = .read sp a 1 → t.readData = (s.byteAt sp a).toNat) ∧
      (∀ off, h = .regRead off → t.readData = (s.regValue off).toNat)

/-- 10_state.md R29: the fields of `STATUS`, its reserved bits, and that writes to it are ignored. -/
def Obligations.StatusWordHasItsFields : Prop :=
  (∀ s : State, s.statusWord.getLsbD 0 = s.busy ∧ s.statusWord.getLsbD 1 = s.fatal ∧
    (∀ i, 2 ≤ i → i < 8 → s.statusWord.getLsbD i = false) ∧ s.statusWord.extractLsb' 8 8 = s.causeCode ∧
    (∀ i, 16 ≤ i → s.statusWord.getLsbD i = false) ∧ (s.fatal = false → s.causeCode = 0) ∧
    (s.fatal = true → s.causeCode.toNat ∈ [1, 2, 3, 4]) ∧ (s.Inv → ¬ (s.busy = true ∧ s.fatal = true))) ∧
  (∀ (s : State) (rest : List HostAccess), s.hostMoves = true → s.host = .regRead 0x04 :: rest →
    ∃ t, step s = .next t ∧ t.readData = s.statusWord.toNat) ∧
  ∀ (s : State) (v : Word) (rest : List HostAccess), s.hostMoves = true → s.host = .regWrite 0x04 v :: rest →
    step s = .next { s with host := rest, seq := s.seq.landed }

/-! ### Every command -/

/-- 70_reset_and_hazards.md R242, 10_state.md R29: every command completes from every state, with `BUSY = 0`. -/
def Obligations.EveryCommandCompletes : Prop :=
  ∀ (i : Instr) (s : State), ∃ t, exec i s = .next t ∧ t.busy = false

/-- 10_state.md R36: what each command changes, whatever its outcome: a permutation command `S[0..b-1]`, SHAKE128
`OUT[0..DLEN-1]` and `S`, a fault the status; nothing else. -/
def Obligations.CommandsChangeOnlyTheirTargets : Prop :=
  ∀ (i : Instr) (s : State), ∃ t, exec i s = .next t ∧
    t = { s with S := t.S, out := t.out, draws := t.draws, fault := t.fault, seq := .idle } ∧
    (i.isPermutation = true → t.out = s.out ∧ t.draws = s.draws ∧
      ∀ k, s.width.toNat ≤ k → t.S.getLsbD k = s.S.getLsbD k) ∧
    (∀ k, s.dlen.toNat ≤ k → t.outByte k = s.outByte k) ∧ (∀ k, t.msgByte k = s.msgByte k) ∧
    (t.fault ≠ s.fault → t.S = s.S ∧ t.out = s.out ∧ t.draws = s.draws)

/-! ### Reset and the machine -/

/-- 10_state.md R35, 70_reset_and_hazards.md R230, R231: what reset leaves, at power-on and as an event in any
state, also while a command runs. Nothing is said of `S` or of any byte of `MSG` and `OUT`. -/
def Obligations.ResetLeavesTheResetValues : Prop :=
  (State.reset.width = 1600 ∧ State.reset.mlen = 0 ∧ State.reset.dlen = 0 ∧ State.reset.busy = false ∧
    State.reset.fatal = false ∧ State.reset.causeCode = 0 ∧ State.reset.seq = .idle) ∧
  (∀ (s : State) (rest : List HostAccess), s.hostMoves = true → s.host = .reset :: rest →
    ∃ t, step s = .next t ∧ t.width = 1600 ∧ t.mlen = 0 ∧ t.dlen = 0 ∧ t.busy = false ∧ t.fatal = false ∧
      t.causeCode = 0 ∧ t.seq = .idle ∧ t.statusWord = 0 ∧ t.host = rest) ∧
  ∀ s : State, s.seq = .idle → s.host = [] → step s = .next s

/-- The invariant holds at reset (10_state.md R35, R29). -/
def Obligations.ResetMeetsTheInvariant : Prop := State.reset.Inv

/-- Every step keeps the invariant: `BUSY` and `FATAL` exclude each other (10_state.md R29), both memories keep
their canonical form and stay inside their capacities (10_state.md R31, R32); the era clause is the model's own
bookkeeping (assumption 2). -/
def Obligations.StepKeepsTheInvariant : Prop :=
  ∀ s t : State, s.Inv → step s = .next t → t.Inv

/-- 20_memory.md R55, 60_exceptions.md R201: while the host makes only accesses that have a meaning, no step stops,
and what it has left to do stays so. The host's list is the model's form of the host (assumption 8). -/
def Obligations.LegalHostNeverStopsTheMachine : Prop :=
  ∀ s : State, s.hostLegal = true → ∃ t, step s = .next t ∧ t.hostLegal = true ∧ t.params = s.params

/-- 70_reset_and_hazards.md R241, R242: an accepted command completes after finitely many steps, whatever the host
does meanwhile. The bound is the model's own count of accesses that land (assumption 6). -/
def Obligations.BusyEndsAfterFinitelyManySteps : Prop :=
  ∀ (s : State) (v : Word) (n : Nat), s.seq = .running v n → s.hostLegal = true →
    ∃ k ≤ n + 1, ∃ t, runSteps k s = .next t ∧ t.busy = false

/-- 20_memory.md R58, R61: when the accepted word decodes to a command and the engine moves (the model's choice
of when: assumptions 6 and 9), the step is that command's meaning. -/
def Obligations.StepRunsTheAcceptedCommand : Prop :=
  ∀ (s : State) (v : Word) (n : Nat) (i : Instr), s.seq = .running v n → engineNext s.host n = true →
    decode v = .ok i → step s = exec i s ∧ i.wf = true

/-- 30_encoding.md R86, 10_state.md R28: the script line `cmd`: the word is written to `CMD`, accepted, and the next
step, while the host polls, is the command. That the engine moves first while the host polls is the model's choice
(assumption 9). -/
def Obligations.ScriptCommandLineRunsTheCommand : Prop :=
  ∀ (s : State) (i : Instr) (rest : List HostAccess), i.wf = true → s.busy = false → s.fatal = false →
    s.host = scriptCmd i ++ rest →
    ∃ n t, step s = .next t ∧
      t = { s with host := .poll :: rest, seq := .running (encode i) n, draws := s.draws + 1 } ∧ step t = exec i t

/-- 20_memory.md R58 (c): when the host moves, the step is its next access, and the access is used up. -/
def Obligations.StepMakesTheNextHostAccess : Prop :=
  ∀ (s : State) (h : HostAccess) (rest : List HostAccess), s.hostMoves = true → s.host = h :: rest →
    step s = access h { s with host := rest, seq := s.seq.landed }

/-! ### Host accesses -/

/-- 10_state.md R28: a write to `CMD` while idle and not faulted issues the word, otherwise it is ignored; `CMD`
reads 0. -/
def Obligations.CmdWriteIssuesTheWord : Prop :=
  (∀ (s : State) (v : Word) (rest : List HostAccess), s.hostMoves = true → s.host = .regWrite 0x00 v :: rest →
    (s.busy = false → s.fatal = false →
      ∃ n, step s = .next { s with host := rest, seq := .running v n, draws := s.draws + 1 }) ∧
    (s.busy = true ∨ s.fatal = true → step s = .next { s with host := rest, seq := s.seq.landed })) ∧
  ∀ (s : State) (rest : List HostAccess), s.hostMoves = true → s.host = .regRead 0x00 :: rest →
    step s = .next { s with host := rest, seq := s.seq.landed, readData := 0 }

/-- 10_state.md R25, R26, R27: any value can be written to `WIDTH`, `MLEN`, `DLEN` while idle and reads back; no
other register changes. -/
def Obligations.ControlRegistersReadBack : Prop :=
  ∀ (s : State) (v : Word) (rest : List HostAccess) (off : Nat), s.seq = .idle → off ∈ [0x08, 0x0C, 0x10] →
    s.host = .regWrite off v :: .regRead off :: rest →
    ∃ t, step s = .next t ∧ t = { s with
        width := if off = 0x08 then v else s.width
        mlen := if off = 0x0C then v else s.mlen
        dlen := if off = 0x10 then v else s.dlen
        host := .regRead off :: rest } ∧
      step t = .next { t with host := rest, readData := v.toNat }

/-- 20_memory.md R51: the reserved offsets read 0 and ignore writes. -/
def Obligations.ReservedOffsetsReadZeroAndIgnoreWrites : Prop :=
  ∀ (s : State) (rest : List HostAccess) (off : Nat), s.hostMoves = true → off ∈ [0x14, 0x18, 0x1C] →
    (s.host = .regRead off :: rest →
      step s = .next { s with host := rest, seq := s.seq.landed, readData := 0 }) ∧
    ∀ v, s.host = .regWrite off v :: rest → step s = .next { s with host := rest, seq := s.seq.landed }

/-- 10_state.md R33: the window reads and writes the eight bits `S[8k..8k+7]`, whatever `WIDTH` holds. -/
def Obligations.WindowByteIsEightStateBits : Prop :=
  ∀ (s : State) (rest : List HostAccess) (k : Nat), s.seq = .idle → k < 200 →
    (s.host = .read .st k 1 :: rest → ∃ t, step s = .next t ∧ t = { s with host := rest, readData := t.readData } ∧
      t.readData < 256 ∧ ∀ j < 8, t.readData.testBit j = s.S.getLsbD (8 * k + j)) ∧
    ∀ v : Byte, s.host = .write .st k 1 v.toNat :: rest →
      ∃ t, step s = .next t ∧ t = { s with host := rest, S := t.S } ∧
        ∀ i < 1600, t.S.getLsbD i = if 8 * k ≤ i ∧ i < 8 * k + 8 then v.getLsbD (i - 8 * k) else s.S.getLsbD i

/-- 20_memory.md R50, R55, 10_state.md R31, R32: while idle, a write of `n` bytes is the `n` byte writes, lowest
address least significant; every other byte of every space stays, and so does all else. -/
def Obligations.WriteIsItsByteWrites : Prop :=
  ∀ (s : State) (rest : List HostAccess) (sp : Space) (a n v : Nat), s.seq = .idle → a + n ≤ s.spaceSize sp →
    s.host = .write sp a n v :: rest →
    ∃ t, step s = .next t ∧ t = { s with S := t.S, msg := t.msg, out := t.out, host := rest } ∧
      (∀ m < n, (t.byteAt sp (a + m)).toNat = v / 256 ^ m % 256) ∧
      ∀ sp' x, x < s.spaceSize sp' → (sp' = sp → x < a ∨ a + n ≤ x) → t.byteAt sp' x = s.byteAt sp' x

/-- 20_memory.md R55, R57: while idle, a read of `n` bytes returns them, lowest address least significant; reads of
bytes, registers and `STATUS` change nothing, and reading twice returns the same. -/
def Obligations.ReadsReturnTheBytesAndChangeNothing : Prop :=
  (∀ (s : State) (rest : List HostAccess) (sp : Space) (a n : Nat), s.seq = .idle → a + n ≤ s.spaceSize sp →
    s.host = .read sp a n :: rest →
    step s = .next { s with
      host := rest
      readData := ((List.range n).map fun m => (s.byteAt sp (a + m)).toNat * 256 ^ m).sum }) ∧
  ∀ (s : State) (rest : List HostAccess) (h : HostAccess), s.seq = .idle → HostAccess.legal s h = true →
    (h = .poll ∨ (∃ off, h = .regRead off) ∨ ∃ sp a n, h = .read sp a n) → s.host = h :: h :: rest →
    ∃ t u, step s = .next t ∧ t = { s with host := h :: rest, readData := t.readData } ∧ step t = .next u ∧
      u = { s with host := rest, readData := t.readData }

/-- 20_memory.md R59: while `BUSY = 1` writes are ignored, the registers read their values, `STATUS` reads
`BUSY = 1, FATAL = 0, CAUSE = 0`, and a read of bytes returns something the statement leaves open. -/
def Obligations.AccessesWhileBusyChangeNothing : Prop :=
  ∀ (s : State) (v : Word) (n : Nat) (h : HostAccess) (rest : List HostAccess), s.seq = .running v n →
    s.hostMoves = true → s.host = h :: rest → HostAccess.legal s h = true → h ≠ .reset →
    ∃ t, step s = .next t ∧ t = { s with
        host := rest
        seq := .running v (n - 1)
        draws := t.draws
        readData := t.readData } ∧
      (∀ off x, h = .regWrite off x → t.draws = s.draws ∧ t.readData = s.readData) ∧
      (∀ sp a k x, h = .write sp a k x → t.draws = s.draws ∧ t.readData = s.readData) ∧
      (h = .regRead 0x08 → t.readData = s.width.toNat) ∧ (h = .regRead 0x0C → t.readData = s.mlen.toNat) ∧
      (h = .regRead 0x10 → t.readData = s.dlen.toNat) ∧ (h = .regRead 0x04 → s.Inv → t.readData = 1)

/-- 20_memory.md R51, R55; 93_implementation_defined.md U4: the accesses without a meaning stop by name; the names are the
model's choice (assumption 12). -/
def Obligations.AccessesOutsideTheEngineStop : Prop :=
  ∀ (s : State) (h : HostAccess) (rest : List HostAccess), s.hostMoves = true → s.host = h :: rest →
    (∀ off, h = .regRead off → 0x1F < off → step s = .fault (.outsideReg off)) ∧
    (∀ off x, h = .regWrite off x → 0x1F < off → step s = .fault (.outsideReg off)) ∧
    (∀ off, h = .regRead off → off ≤ 0x1F → off % 4 ≠ 0 → step s = .refused (.regNotWholeWord off 4)) ∧
    (∀ off x, h = .regWrite off x → off ≤ 0x1F → off % 4 ≠ 0 → step s = .refused (.regNotWholeWord off 4)) ∧
    (∀ off n, h = .regPart off n → off ≤ 0x1F → step s = .refused (.regNotWholeWord off n)) ∧
    (∀ sp a n, h = .read sp a (n + 1) → s.spaceSize sp < a + (n + 1) →
      step s = .fault (.outsideSpace sp (max a (s.spaceSize sp)))) ∧
    (∀ sp a n x, h = .write sp a (n + 1) x → s.spaceSize sp < a + (n + 1) →
      step s = .fault (.outsideSpace sp (max a (s.spaceSize sp))))
end

