-- ==== Sys2Proof/Laws/Bits.lean ====
section
/-! SUPPORT. Bit sequences, their numbers and bytes (40_bit_buffer.md), and the byte window on `S`
(20_memory.md R54), bit by bit. -/

namespace Sys2Proof.Machine

theorem bitsVal_testBit (X : List Bool) (i : Nat) : (bitsVal X).testBit i = X.getD i false := by
  induction X generalizing i with
  | nil => simp [bitsVal]
  | cons b X ih =>
    cases i with
    | zero => cases b <;> simp [bitsVal, Nat.testBit_zero]
    | succ i =>
      rw [Nat.testBit_succ, show bitsVal (b :: X) / 2 = bitsVal X by have hb := b.toNat_lt; rw [bitsVal]; omega, ih]
      simp

/-- Bit `i` of the register made from a sequence is the bit at position `i`, 0 past its end. -/
theorem getLsbD_ofBits (n : Nat) (X : List Bool) (i : Nat) :
    (ofBits n X).getLsbD i = (decide (i < n) && X.getD i false) := by
  rw [ofBits, BitVec.getLsbD_ofNat, bitsVal_testBit]

@[simp] theorem length_bitsFrom {n : Nat} (r : Nat) (S : BitVec n) : (bitsFrom r S).length = r := by
  simp [bitsFrom]

theorem getElem?_bitsFrom {n : Nat} (r : Nat) (S : BitVec n) {i : Nat} (h : i < r) :
    (bitsFrom r S)[i]? = some (S.getLsbD i) := by
  simp [bitsFrom, h]

theorem getD_bitsFrom {n : Nat} (r : Nat) (S : BitVec n) (i : Nat) :
    (bitsFrom r S).getD i false = (decide (i < r) && S.getLsbD i) := by
  by_cases h : i < r <;> simp [List.getD, bitsFrom, h]

@[simp] theorem length_bitsOf (B : List Byte) : (bitsOf B).length = 8 * B.length := by
  induction B with
  | nil => rfl
  | cons b B ih => simp only [bitsOf, List.flatMap_cons, List.length_append, length_bitsFrom,
      List.length_cons] at *; omega

@[simp] theorem length_packBytes (n : Nat) (X : List Bool) : (packBytes n X).length = n := by
  induction n generalizing X with
  | zero => rfl
  | succ n ih => simp [packBytes, ih]

/-- Byte `k` of a packed sequence (40_bit_buffer.md R101). -/
theorem getElem?_packBytes (n : Nat) (X : List Bool) {k : Nat} (h : k < n) :
    (packBytes n X)[k]? = some (ofBits 8 ((X.drop (8 * k)).take 8)) := by
  induction n generalizing X k with
  | zero => omega
  | succ n ih =>
    cases k with
    | zero => simp [packBytes]
    | succ k =>
      rw [packBytes, List.getElem?_cons_succ, ih _ (by omega), List.drop_drop]
      congr 4; omega

/-- Bit `j` of byte `k` of the window is `S[8k+j]` (20_memory.md R54). -/
theorem getLsbD_stByte (S : BitVec 1600) (k : Nat) {j : Nat} (h : j < 8) :
    (stByte S k).getLsbD j = S.getLsbD (8 * k + j) := by
  simp [stByte, h]

theorem getLsbD_setStByte (S : BitVec 1600) (k : Nat) (v : Byte) {i : Nat} (h : i < 1600) :
    (setStByte S k v).getLsbD i = if 8 * k ≤ i ∧ i < 8 * k + 8 then v.getLsbD (i - 8 * k) else S.getLsbD i := by
  have hm : (255 : BitVec 1600).getLsbD (i - 8 * k) = decide (i - 8 * k < 8) := by
    rw [show (255 : BitVec 1600) = BitVec.ofNat 1600 (2 ^ 8 - 1) from rfl, BitVec.getLsbD_ofNat,
      Nat.testBit_two_pow_sub_one]
    simp; omega
  simp only [setStByte, BitVec.getLsbD_or, BitVec.getLsbD_and, BitVec.getLsbD_not, BitVec.getLsbD_shiftLeft,
    BitVec.getLsbD_setWidth, hm, h, decide_true, Bool.true_and]
  by_cases h1 : 8 * k ≤ i
  · by_cases h2 : i < 8 * k + 8
    · rw [if_pos ⟨h1, h2⟩]
      have : i - 8 * k < 1600 := by omega
      have : ¬ i < 8 * k := by omega
      have : i - 8 * k < 8 := by omega
      simp [*]
    · rw [if_neg (by omega)]
      have h3 : ¬ i - 8 * k < 8 := by omega
      have h4 : v.getLsbD (i - 8 * k) = false := BitVec.getLsbD_of_ge v _ (by omega)
      simp [h3, h4]
  · rw [if_neg (by omega)]
    have : i < 8 * k := by omega
    simp [this]

/-- Read after write in the window. -/
theorem stByte_setStByte_self (S : BitVec 1600) {k : Nat} (hk : k < 200) (v : Byte) :
    stByte (setStByte S k v) k = v := by
  apply BitVec.eq_of_getLsbD_eq
  intro j hj
  rw [getLsbD_stByte _ _ hj, getLsbD_setStByte _ _ _ (by omega), if_pos (by omega)]
  congr 1; omega

theorem stByte_setStByte_other (S : BitVec 1600) {k x : Nat} (hx : x < 200) (h : x ≠ k) (v : Byte) :
    stByte (setStByte S k v) x = stByte S x := by
  apply BitVec.eq_of_getLsbD_eq
  intro j hj
  rw [getLsbD_stByte _ _ hj, getLsbD_stByte _ _ hj, getLsbD_setStByte _ _ _ (by omega), if_neg (by omega)]

end Sys2Proof.Machine
end

