-- ==== Sys2Proof/Laws/Decode.lean ====
section
/-! SUPPORT. The fields of an assembled command word (30_encoding.md R80, R86). -/

namespace Sys2Proof

/-- The number of an assembled word: the opcode and the operand modulo 256. -/
theorem toNat_assemble {op : Nat} (h : op < 256) (operand : Int) :
    (assemble op operand).toNat = op + 256 * (operand % 256).toNat := by
  have : (operand % 256).toNat < 256 := by omega
  simp only [assemble, BitVec.toNat_ofNat]
  exact Nat.mod_eq_of_lt (by omega)

theorem opOf_eq (w : Word) : opOf w = w.toNat % 256 := by simp [opOf]

theorem immOf_eq (w : Word) : immOf w = w.toNat / 256 % 256 := by
  simp [immOf, Nat.shiftRight_eq_div_pow]

theorem zeroOf_eq (w : Word) : zeroOf w = w.toNat / 65536 := by
  have := w.isLt
  simp only [zeroOf, BitVec.extractLsb'_toNat, Nat.shiftRight_eq_div_pow]
  omega

theorem zeroOf_assemble {op : Nat} (h : op < 256) (operand : Int) : zeroOf (assemble op operand) = 0 := by
  rw [zeroOf_eq, toNat_assemble h]; omega

theorem opOf_assemble {op : Nat} (h : op < 256) (operand : Int) : opOf (assemble op operand) = op := by
  rw [opOf_eq, toNat_assemble h]; omega

theorem immOf_assemble {op : Nat} (h : op < 256) (operand : Int) :
    immOf (assemble op operand) = (operand % 256).toNat := by
  rw [immOf_eq, toNat_assemble h]; omega

/-- A word is its three fields (30_encoding.md R80). -/
theorem toNat_eq_fields (w : Word) : w.toNat = opOf w + 256 * immOf w + 65536 * zeroOf w := by
  rw [opOf_eq, immOf_eq, zeroOf_eq]; omega

theorem immOf_lt (w : Word) : immOf w < 256 := by rw [immOf_eq]; omega

/-- Reading back a signed operand (30_encoding.md R82). -/
theorem sext8_emod {ir : Int} (h1 : -128 ≤ ir) (h2 : ir ≤ 127) : sext8 (ir % 256).toNat = ir := by
  unfold sext8; split <;> omega

theorem sext8_range {v : Nat} (h : v < 256) : -128 ≤ sext8 v ∧ sext8 v ≤ 127 ∧ (sext8 v % 256).toNat = v := by
  unfold sext8; split <;> omega

end Sys2Proof
end

