-- ==== Sys2Proof/Laws/Lanes.lean ====
section
/-! SUPPORT. The state array, bit by bit: building an array, reading it from `S` and writing it back
(10_state.md R21, R22), and the seven legal widths. -/

namespace Sys2Proof.Machine

/-- Lane `(x,y)` of a built array. -/
theorem Lanes.at_build {w : Nat} (f : Nat → Nat → BitVec w) {x y : Nat} (hx : x < 5) (hy : y < 5) :
    (Lanes.build f).at x y = f x y := by
  have h : 5 * y + x < 25 := by omega
  simp only [Lanes.at, Lanes.build, List.getD, List.getElem?_map, List.getElem?_range h, Option.map_some,
    Option.getD_some]
  congr 1 <;> omega

@[simp] theorem Lanes.length_build {w : Nat} (f : Nat → Nat → BitVec w) : (Lanes.build f).length = 25 := by
  simp [Lanes.build]

/-- Bit `A[x,y,z]` of the array read from `S` is `S[w(5y+x)+z]` (10_state.md R22). -/
theorem getLsbD_at_toArray {n : Nat} (w : Nat) (S : BitVec n) {x y z : Nat} (hx : x < 5) (hy : y < 5) (hz : z < w) :
    ((toArray w S).at x y).getLsbD z = S.getLsbD (w * (5 * y + x) + z) := by
  rw [toArray, Lanes.at_build _ hx hy, BitVec.getLsbD_extractLsb']
  simp [hz]

/-- Bit `i` of a sequence of lanes is bit `i mod w` of lane number `i div w`; 0 past the last lane. -/
theorem getLsbD_toSequence {w : Nat} (n : Nat) (A : Lanes w) (hw : 0 < w) (i : Nat) :
    (toSequence n A).getLsbD i = (decide (i < n) && (A.getD (i / w) 0).getLsbD (i % w)) := by
  induction A generalizing i with
  | nil => simp [toSequence]
  | cons L A ih =>
    simp only [toSequence, BitVec.getLsbD_or, BitVec.getLsbD_setWidth, BitVec.getLsbD_shiftLeft, ih]
    by_cases h : i < w
    · simp [h, Nat.div_eq_of_lt h, Nat.mod_eq_of_lt h]
    · have hge : w ≤ i := by omega
      rw [Nat.div_eq_sub_div hw hge, Nat.mod_eq_sub_mod hge]
      have : L.getLsbD i = false := BitVec.getLsbD_of_ge L i hge
      by_cases hn : i < n
      · simp [this, h, hn]; omega
      · simp [this, hn]

/-- Writing an array of 25 lanes back: bit `A[x,y,z]` goes to `S[w(5y+x)+z]` (10_state.md R22). -/
theorem getLsbD_putArray_low {w : Nat} (A : Lanes w) (S : BitVec 1600) (hw : 0 < w) (hw' : w ≤ 64) {i : Nat}
    (hi : i < 25 * w) : (putArray A S).getLsbD i = (A.getD (i / w) 0).getLsbD (i % w) := by
  have h1 : i < 1600 := by omega
  simp only [putArray, BitVec.getLsbD_or, BitVec.getLsbD_shiftLeft, getLsbD_toSequence _ _ hw, hi, h1, decide_true,
    Bool.not_true, Bool.and_false, Bool.false_and, Bool.true_and, Bool.false_or]

/-- Writing an array of 25 lanes leaves `S[b..1599]`, `b = 25w`, as it was (10_state.md R21). -/
theorem getLsbD_putArray_high {w : Nat} (A : Lanes w) (hA : A.length = 25) (S : BitVec 1600) (hw : 0 < w) {i : Nat}
    (hi : 25 * w ≤ i) : (putArray A S).getLsbD i = S.getLsbD i := by
  have h25 : 25 ≤ i / w := (Nat.le_div_iff_mul_le hw).2 hi
  have hg : (A.getD (i / w) 0).getLsbD (i % w) = false := by simp [List.getD, List.getElem?_eq_none (hA ▸ h25)]
  by_cases h1 : i < 1600
  · have : ¬ i < 25 * w := by omega
    simp only [putArray, BitVec.getLsbD_or, BitVec.getLsbD_shiftLeft, BitVec.getLsbD_ushiftRight,
      getLsbD_toSequence _ _ hw, hg, h1, this, decide_true, decide_false, Bool.not_false, Bool.true_and,
      Bool.or_false]
    congr 1; omega
  · rw [BitVec.getLsbD_of_ge _ _ (by omega), BitVec.getLsbD_of_ge _ _ (by omega)]

/-- The bit `A[x,y,z]` of what `putArray` leaves is bit `z` of lane `(x,y)` (10_state.md R22). -/
theorem bitA_putArray {w : Nat} (A : Lanes w) (S : BitVec 1600) (hw' : w ≤ 64) {x y z : Nat} (hx : x < 5)
    (hy : y < 5) (hz : z < w) : bitA w (putArray A S) x y z = (A.at x y).getLsbD z := by
  have hw : 0 < w := by omega
  have hlt : w * (5 * y + x) + z < 25 * w := by
    have : w * (5 * y + x) ≤ w * 24 := Nat.mul_le_mul_left w (by omega)
    omega
  rw [bitA, getLsbD_putArray_low A S hw hw' hlt, Nat.mul_add_div hw, Nat.div_eq_of_lt hz, Nat.mul_add_mod,
    Nat.mod_eq_of_lt hz]
  rfl

/-- The bit `A[x,y,z]` of `S` is bit `z` of lane `(x,y)` of the array read from it. -/
theorem bitA_eq (w : Nat) (S : BitVec 1600) {x y z : Nat} (hx : x < 5) (hy : y < 5) (hz : z < w) :
    bitA w S x y z = ((toArray w S).at x y).getLsbD z :=
  (getLsbD_at_toArray w S hx hy hz).symm

/-- Two arrays of 25 lanes are equal when their lanes are. -/
theorem Lanes.ext_at {w : Nat} {A B : Lanes w} (hA : A.length = 25) (hB : B.length = 25)
    (h : ∀ x < 5, ∀ y < 5, A.at x y = B.at x y) : A = B := by
  apply List.ext_getElem (by omega)
  intro n h1 h2
  have := h (n % 5) (Nat.mod_lt _ (by omega)) (n / 5) (by omega)
  simpa [Lanes.at, show 5 * (n / 5) + n % 5 = n by omega, List.getD, h1, h2] using this

/-- Reading back what was written (10_state.md R22). -/
theorem toArray_putArray {w : Nat} (A : Lanes w) (hA : A.length = 25) (S : BitVec 1600) (hw' : w ≤ 64) :
    toArray w (putArray A S) = A := by
  apply Lanes.ext_at (by simp [toArray]) hA
  intro x hx y hy
  apply BitVec.eq_of_getLsbD_eq
  intro z hz
  rw [getLsbD_at_toArray w _ hx hy hz]
  exact bitA_putArray A S hw' hx hy hz

/-- A second write replaces the first. -/
theorem putArray_putArray {w : Nat} (A B : Lanes w) (hA : A.length = 25) (hB : B.length = 25) (S : BitVec 1600)
    (hw : 0 < w) (hw' : w ≤ 64) : putArray B (putArray A S) = putArray B S := by
  apply BitVec.eq_of_getLsbD_eq
  intro i _
  by_cases h : i < 25 * w
  · rw [getLsbD_putArray_low _ _ hw hw' h, getLsbD_putArray_low _ _ hw hw' h]
  · rw [getLsbD_putArray_high _ hB _ hw (by omega), getLsbD_putArray_high _ hA _ hw (by omega),
      getLsbD_putArray_high _ hB _ hw (by omega)]

/-- Writing back what was read changes nothing. -/
theorem putArray_toArray (w : Nat) (S : BitVec 1600) (hw : 0 < w) (hw' : w ≤ 64) : putArray (toArray w S) S = S := by
  apply BitVec.eq_of_getLsbD_eq
  intro i _
  by_cases h : i < 25 * w
  · have hq : i / w < 25 := (Nat.div_lt_iff_lt_mul hw).2 h
    have hr : i % w < w := Nat.mod_lt _ hw
    have he : w * (i / w) + i % w = i := Nat.div_add_mod i w
    have hb := bitA_putArray (toArray w S) S hw' (x := i / w % 5) (y := i / w / 5) (by omega) (by omega) hr
    rw [getLsbD_at_toArray w S (by omega) (by omega) hr, bitA,
      show 5 * (i / w / 5) + i / w % 5 = i / w by omega, he] at hb
    exact hb
  · exact getLsbD_putArray_high _ (by simp [toArray]) _ hw (by omega)

@[simp] theorem length_toArray {n : Nat} (w : Nat) (S : BitVec n) : (toArray w S).length = 25 := by simp [toArray]
@[simp] theorem length_thetaMap {w : Nat} (A : Lanes w) : (thetaMap A).length = 25 := by simp [thetaMap]
@[simp] theorem length_rhoMap {w : Nat} (A : Lanes w) : (rhoMap A).length = 25 := by simp [rhoMap]
@[simp] theorem length_piMap {w : Nat} (A : Lanes w) : (piMap A).length = 25 := by simp [piMap]
@[simp] theorem length_chiMap {w : Nat} (A : Lanes w) : (chiMap A).length = 25 := by simp [chiMap]
@[simp] theorem length_iotaMap {w : Nat} (ir : Int) (A : Lanes w) : (iotaMap ir A).length = 25 := by simp [iotaMap]
@[simp] theorem length_rnd {w : Nat} (ir : Int) (A : Lanes w) : (rnd ir A).length = 25 := by simp [rnd]

theorem length_rounds {w : Nat} (n : Nat) (ir : Int) (A : Lanes w) (h : A.length = 25) :
    (rounds n ir A).length = 25 := by
  induction n generalizing ir A with
  | zero => exact h
  | succ n ih => exact ih _ _ (length_rnd ir A)

theorem length_keccakRounds {w : Nat} (nr : Nat) (A : Lanes w) (h : A.length = 25) :
    (keccakRounds nr A).length = 25 :=
  length_rounds _ _ _ h

/-- The legal widths are `25w` with `w = 2^l`, `l = 0..6` (00_scope.md R4). -/
theorem State.widthLegal_iff (s : State) :
    s.widthLegal = true ↔ ∃ l, l ≤ 6 ∧ s.width.toNat = 25 * 2 ^ l := by
  have h0 : s.widthLegal = true ↔ s.width.toNat = 25 ∨ s.width.toNat = 50 ∨ s.width.toNat = 100 ∨
      s.width.toNat = 200 ∨ s.width.toNat = 400 ∨ s.width.toNat = 800 ∨ s.width.toNat = 1600 := by
    simp [State.widthLegal, legalWidths]
  rw [h0]
  constructor
  · rintro (h | h | h | h | h | h | h)
    exacts [⟨0, by omega, h⟩, ⟨1, by omega, h⟩, ⟨2, by omega, h⟩, ⟨3, by omega, h⟩, ⟨4, by omega, h⟩,
      ⟨5, by omega, h⟩, ⟨6, by omega, h⟩]
  · rintro ⟨l, hl, h⟩
    interval_cases l <;> simp_all

/-- What a legal width gives: the lane size is `2^l`, at most 64, and `b = 25w` (00_scope.md R4). -/
theorem State.laneSize_of_legal {s : State} (h : s.widthLegal = true) :
    ∃ l, l ≤ 6 ∧ s.laneSize = 2 ^ l ∧ 0 < s.laneSize ∧ s.laneSize ≤ 64 ∧ s.width.toNat = 25 * s.laneSize := by
  obtain ⟨l, hl, hw⟩ := s.widthLegal_iff.1 h
  have hs : s.laneSize = 2 ^ l := by rw [State.laneSize, hw, Nat.mul_div_cancel_left _ (by omega)]
  have h64 : 2 ^ l ≤ 2 ^ 6 := Nat.pow_le_pow_right (by omega) hl
  exact ⟨l, hl, hs, hs ▸ Nat.two_pow_pos l, by omega, by omega⟩

end Sys2Proof.Machine
end

