-- ==== Sys2Proof/Laws/Memory.lean ====
section
/-! SUPPORT. What writing a byte memory does: read after write, every other address left alone, the canonical form
kept. -/

namespace Sys2Proof.Machine

theorem Memory.get?_set_self (m : Memory) (a : Nat) (v : Byte) : Memory.get? (Memory.set m a v) a = some v := by
  induction m with
  | nil => simp [Memory.set, Memory.get?]
  | cons c m ih =>
    obtain ⟨b, u⟩ := c
    simp only [Memory.set]
    split_ifs with h1 h2
    · simp [Memory.get?]
    · simp [Memory.get?]
    · rw [Memory.get?, if_neg (Ne.symm h2), ih]

theorem Memory.get?_set_other (m : Memory) {a x : Nat} (v : Byte) (h : x ≠ a) :
    Memory.get? (Memory.set m a v) x = Memory.get? m x := by
  induction m with
  | nil => simp [Memory.set, Memory.get?, h.symm]
  | cons c m ih =>
    obtain ⟨b, u⟩ := c
    simp only [Memory.set]
    split_ifs with h1 h2
    · rw [Memory.get?, if_neg h.symm]
    · subst h2; simp [Memory.get?, h.symm]
    · simp [Memory.get?, ih]

theorem Memory.get?_set (m : Memory) (a x : Nat) (v : Byte) :
    Memory.get? (Memory.set m a v) x = if x = a then some v else Memory.get? m x := by
  split_ifs with h
  · rw [h, Memory.get?_set_self]
  · exact Memory.get?_set_other m v h

theorem Memory.wfFrom_set (m : Memory) {lo a : Nat} (v : Byte) (hlo : lo ≤ a) (h : Memory.wfFrom lo m = true) :
    Memory.wfFrom lo (Memory.set m a v) = true := by
  induction m generalizing lo with
  | nil => simp [Memory.set, Memory.wfFrom, hlo]
  | cons c m ih =>
    obtain ⟨b, u⟩ := c
    simp only [Memory.wfFrom, Bool.and_eq_true, decide_eq_true_eq] at h
    simp only [Memory.set]
    split_ifs with h1 h2
    · simp [Memory.wfFrom, hlo, h.2]; omega
    · subst h2; simp [Memory.wfFrom, h.1, h.2]
    · simp [Memory.wfFrom, h.1, ih (by omega) h.2]

/-- Every write keeps the canonical form. -/
theorem Memory.wf_set (m : Memory) (a : Nat) (v : Byte) (h : Memory.wf m = true) :
    Memory.wf (Memory.set m a v) = true :=
  Memory.wfFrom_set m v (Nat.zero_le a) h

theorem Memory.below_set (m : Memory) {cap a : Nat} (v : Byte) (ha : a < cap) (h : Memory.below cap m = true) :
    Memory.below cap (Memory.set m a v) = true := by
  induction m with
  | nil => simp [Memory.set, Memory.below, ha]
  | cons c m ih =>
    obtain ⟨b, u⟩ := c
    simp only [Memory.below, List.all_cons, Bool.and_eq_true, decide_eq_true_eq] at h ih ⊢
    simp only [Memory.set]
    split_ifs with h1 h2
    · simp [ha, h.1, h.2]
    · simp [ha, h.2]
    · simp [h.1, ih h.2]

/-- Read after writing the bytes `vs` from `a` on: byte `x - a` of `vs` there, every other address as before. -/
theorem Memory.get?_setAll (vs : List Byte) (m : Memory) (a x : Nat) :
    Memory.get? (Memory.setAll m a vs) x =
      if a ≤ x ∧ x < a + vs.length then vs[x - a]? else Memory.get? m x := by
  induction vs generalizing m a with
  | nil => simp only [Memory.setAll, List.length_nil]; rw [if_neg (by omega)]
  | cons v vs ih =>
    simp only [Memory.setAll, ih, Memory.get?_set, List.length_cons]
    by_cases hx : x = a
    · subst hx; simp
    · by_cases hlt : a ≤ x ∧ x < a + (vs.length + 1)
      · rw [if_pos (by omega), if_pos hlt, show x - a = (x - (a + 1)) + 1 by omega, List.getElem?_cons_succ]
      · rw [if_neg (by omega), if_neg hlt, if_neg hx]

theorem Memory.wf_setAll (vs : List Byte) (m : Memory) (a : Nat) (h : Memory.wf m = true) :
    Memory.wf (Memory.setAll m a vs) = true := by
  induction vs generalizing m a with
  | nil => exact h
  | cons v vs ih => exact ih _ _ (Memory.wf_set m a v h)

theorem Memory.below_setAll (vs : List Byte) (m : Memory) {cap a : Nat} (ha : a + vs.length ≤ cap)
    (h : Memory.below cap m = true) : Memory.below cap (Memory.setAll m a vs) = true := by
  induction vs generalizing m a with
  | nil => exact h
  | cons v vs ih =>
    simp only [List.length_cons] at ha
    exact ih _ (by omega) (Memory.below_set m v (by omega) h)

end Sys2Proof.Machine
end

