-- ==== Sys2Proof/Laws/State.lean ====
section
/-! SUPPORT. One lemma per field per named update of the state, so that no later proof unfolds a record update, and
the status accessors of each update. -/

namespace Sys2Proof.Machine

/-! ### The end of a command -/

@[simp] theorem State.finish_S (s : State) : (s.finish).S = s.S := rfl
@[simp] theorem State.finish_width (s : State) : (s.finish).width = s.width := rfl
@[simp] theorem State.finish_mlen (s : State) : (s.finish).mlen = s.mlen := rfl
@[simp] theorem State.finish_dlen (s : State) : (s.finish).dlen = s.dlen := rfl
@[simp] theorem State.finish_fault (s : State) : (s.finish).fault = s.fault := rfl
@[simp] theorem State.finish_seq (s : State) : (s.finish).seq = .idle := rfl
@[simp] theorem State.finish_msg (s : State) : (s.finish).msg = s.msg := rfl
@[simp] theorem State.finish_out (s : State) : (s.finish).out = s.out := rfl
@[simp] theorem State.finish_era (s : State) : (s.finish).era = s.era := rfl
@[simp] theorem State.finish_draws (s : State) : (s.finish).draws = s.draws := rfl
@[simp] theorem State.finish_host (s : State) : (s.finish).host = s.host := rfl
@[simp] theorem State.finish_readData (s : State) : (s.finish).readData = s.readData := rfl
@[simp] theorem State.finish_params (s : State) : (s.finish).params = s.params := rfl

/-! ### Taking a fault (60_exceptions.md R207) -/

@[simp] theorem State.raiseFatal_S (s : State) (c : Cause) : (s.raiseFatal c).S = s.S := rfl
@[simp] theorem State.raiseFatal_width (s : State) (c : Cause) : (s.raiseFatal c).width = s.width := rfl
@[simp] theorem State.raiseFatal_mlen (s : State) (c : Cause) : (s.raiseFatal c).mlen = s.mlen := rfl
@[simp] theorem State.raiseFatal_dlen (s : State) (c : Cause) : (s.raiseFatal c).dlen = s.dlen := rfl
@[simp] theorem State.raiseFatal_fault (s : State) (c : Cause) : (s.raiseFatal c).fault = some c := rfl
@[simp] theorem State.raiseFatal_seq (s : State) (c : Cause) : (s.raiseFatal c).seq = .idle := rfl
@[simp] theorem State.raiseFatal_msg (s : State) (c : Cause) : (s.raiseFatal c).msg = s.msg := rfl
@[simp] theorem State.raiseFatal_out (s : State) (c : Cause) : (s.raiseFatal c).out = s.out := rfl
@[simp] theorem State.raiseFatal_era (s : State) (c : Cause) : (s.raiseFatal c).era = s.era := rfl
@[simp] theorem State.raiseFatal_draws (s : State) (c : Cause) : (s.raiseFatal c).draws = s.draws := rfl
@[simp] theorem State.raiseFatal_host (s : State) (c : Cause) : (s.raiseFatal c).host = s.host := rfl
@[simp] theorem State.raiseFatal_readData (s : State) (c : Cause) : (s.raiseFatal c).readData = s.readData := rfl
@[simp] theorem State.raiseFatal_params (s : State) (c : Cause) : (s.raiseFatal c).params = s.params := rfl

/-! ### The reset event (70_reset_and_hazards.md R230) -/

@[simp] theorem State.resetEvent_S (s : State) : (s.resetEvent).S = Config.freeS s.draws := rfl
@[simp] theorem State.resetEvent_width (s : State) : (s.resetEvent).width = 1600 := rfl
@[simp] theorem State.resetEvent_mlen (s : State) : (s.resetEvent).mlen = 0 := rfl
@[simp] theorem State.resetEvent_dlen (s : State) : (s.resetEvent).dlen = 0 := rfl
@[simp] theorem State.resetEvent_fault (s : State) : (s.resetEvent).fault = none := rfl
@[simp] theorem State.resetEvent_seq (s : State) : (s.resetEvent).seq = .idle := rfl
@[simp] theorem State.resetEvent_msg (s : State) : (s.resetEvent).msg = [] := rfl
@[simp] theorem State.resetEvent_out (s : State) : (s.resetEvent).out = [] := rfl
@[simp] theorem State.resetEvent_era (s : State) : (s.resetEvent).era = s.draws + 1 := rfl
@[simp] theorem State.resetEvent_draws (s : State) : (s.resetEvent).draws = s.draws + 1 := rfl
@[simp] theorem State.resetEvent_host (s : State) : (s.resetEvent).host = s.host := rfl
@[simp] theorem State.resetEvent_readData (s : State) : (s.resetEvent).readData = s.readData := rfl
@[simp] theorem State.resetEvent_params (s : State) : (s.resetEvent).params = s.params := rfl

/-! ### A word accepted -/

@[simp] theorem State.accepted_S (s : State) (w : Word) : (s.accepted w).S = s.S := rfl
@[simp] theorem State.accepted_width (s : State) (w : Word) : (s.accepted w).width = s.width := rfl
@[simp] theorem State.accepted_mlen (s : State) (w : Word) : (s.accepted w).mlen = s.mlen := rfl
@[simp] theorem State.accepted_dlen (s : State) (w : Word) : (s.accepted w).dlen = s.dlen := rfl
@[simp] theorem State.accepted_fault (s : State) (w : Word) : (s.accepted w).fault = none := rfl
@[simp] theorem State.accepted_seq (s : State) (w : Word) : (s.accepted w).seq = .running w 0 := rfl
@[simp] theorem State.accepted_msg (s : State) (w : Word) : (s.accepted w).msg = s.msg := rfl
@[simp] theorem State.accepted_out (s : State) (w : Word) : (s.accepted w).out = s.out := rfl
@[simp] theorem State.accepted_era (s : State) (w : Word) : (s.accepted w).era = s.era := rfl
@[simp] theorem State.accepted_draws (s : State) (w : Word) : (s.accepted w).draws = s.draws := rfl
@[simp] theorem State.accepted_host (s : State) (w : Word) : (s.accepted w).host = s.host := rfl
@[simp] theorem State.accepted_readData (s : State) (w : Word) : (s.accepted w).readData = s.readData := rfl
@[simp] theorem State.accepted_params (s : State) (w : Word) : (s.accepted w).params = s.params := rfl

/-! ### SHAKE128 done (45_shake128.md R181, R184) -/

@[simp] theorem State.shakeDone_S (s : State) : (s.shakeDone).S = Config.freeS s.draws := rfl
@[simp] theorem State.shakeDone_width (s : State) : (s.shakeDone).width = s.width := rfl
@[simp] theorem State.shakeDone_mlen (s : State) : (s.shakeDone).mlen = s.mlen := rfl
@[simp] theorem State.shakeDone_dlen (s : State) : (s.shakeDone).dlen = s.dlen := rfl
@[simp] theorem State.shakeDone_fault (s : State) : (s.shakeDone).fault = s.fault := rfl
@[simp] theorem State.shakeDone_seq (s : State) : (s.shakeDone).seq = .idle := rfl
@[simp] theorem State.shakeDone_msg (s : State) : (s.shakeDone).msg = s.msg := rfl
@[simp] theorem State.shakeDone_out (s : State) : (s.shakeDone).out = Memory.setAll s.out 0
    (s.digest s.mlen.toNat s.dlen.toNat) := rfl
@[simp] theorem State.shakeDone_era (s : State) : (s.shakeDone).era = s.era := rfl
@[simp] theorem State.shakeDone_draws (s : State) : (s.shakeDone).draws = s.draws + 1 := rfl
@[simp] theorem State.shakeDone_host (s : State) : (s.shakeDone).host = s.host := rfl
@[simp] theorem State.shakeDone_readData (s : State) : (s.shakeDone).readData = s.readData := rfl
@[simp] theorem State.shakeDone_params (s : State) : (s.shakeDone).params = s.params := rfl

/-! ### A byte of a space replaced -/

@[simp] theorem State.setByte_st_S (s : State) (a : Nat) (v : Byte) : (s.setByte .st a v).S = setStByte s.S a v := rfl
@[simp] theorem State.setByte_st_width (s : State) (a : Nat) (v : Byte) : (s.setByte .st a v).width = s.width := rfl
@[simp] theorem State.setByte_st_mlen (s : State) (a : Nat) (v : Byte) : (s.setByte .st a v).mlen = s.mlen := rfl
@[simp] theorem State.setByte_st_dlen (s : State) (a : Nat) (v : Byte) : (s.setByte .st a v).dlen = s.dlen := rfl
@[simp] theorem State.setByte_st_fault (s : State) (a : Nat) (v : Byte) : (s.setByte .st a v).fault = s.fault := rfl
@[simp] theorem State.setByte_st_seq (s : State) (a : Nat) (v : Byte) : (s.setByte .st a v).seq = s.seq := rfl
@[simp] theorem State.setByte_st_msg (s : State) (a : Nat) (v : Byte) : (s.setByte .st a v).msg = s.msg := rfl
@[simp] theorem State.setByte_st_out (s : State) (a : Nat) (v : Byte) : (s.setByte .st a v).out = s.out := rfl
@[simp] theorem State.setByte_st_era (s : State) (a : Nat) (v : Byte) : (s.setByte .st a v).era = s.era := rfl
@[simp] theorem State.setByte_st_draws (s : State) (a : Nat) (v : Byte) : (s.setByte .st a v).draws = s.draws := rfl
@[simp] theorem State.setByte_st_host (s : State) (a : Nat) (v : Byte) : (s.setByte .st a v).host = s.host := rfl
@[simp] theorem State.setByte_st_readData (s : State) (a : Nat) (v : Byte) : (s.setByte .st a v).readData =
    s.readData := rfl
@[simp] theorem State.setByte_st_params (s : State) (a : Nat) (v : Byte) : (s.setByte .st a v).params = s.params := rfl
@[simp] theorem State.setByte_msg_S (s : State) (a : Nat) (v : Byte) : (s.setByte .msg a v).S = s.S := rfl
@[simp] theorem State.setByte_msg_width (s : State) (a : Nat) (v : Byte) : (s.setByte .msg a v).width = s.width := rfl
@[simp] theorem State.setByte_msg_mlen (s : State) (a : Nat) (v : Byte) : (s.setByte .msg a v).mlen = s.mlen := rfl
@[simp] theorem State.setByte_msg_dlen (s : State) (a : Nat) (v : Byte) : (s.setByte .msg a v).dlen = s.dlen := rfl
@[simp] theorem State.setByte_msg_fault (s : State) (a : Nat) (v : Byte) : (s.setByte .msg a v).fault = s.fault := rfl
@[simp] theorem State.setByte_msg_seq (s : State) (a : Nat) (v : Byte) : (s.setByte .msg a v).seq = s.seq := rfl
@[simp] theorem State.setByte_msg_msg (s : State) (a : Nat) (v : Byte) : (s.setByte .msg a v).msg =
    Memory.set s.msg a v := rfl
@[simp] theorem State.setByte_msg_out (s : State) (a : Nat) (v : Byte) : (s.setByte .msg a v).out = s.out := rfl
@[simp] theorem State.setByte_msg_era (s : State) (a : Nat) (v : Byte) : (s.setByte .msg a v).era = s.era := rfl
@[simp] theorem State.setByte_msg_draws (s : State) (a : Nat) (v : Byte) : (s.setByte .msg a v).draws = s.draws := rfl
@[simp] theorem State.setByte_msg_host (s : State) (a : Nat) (v : Byte) : (s.setByte .msg a v).host = s.host := rfl
@[simp] theorem State.setByte_msg_readData (s : State) (a : Nat) (v : Byte) : (s.setByte .msg a v).readData =
    s.readData := rfl
@[simp] theorem State.setByte_msg_params (s : State) (a : Nat) (v : Byte) : (s.setByte .msg a v).params = s.params :=
    rfl
@[simp] theorem State.setByte_out_S (s : State) (a : Nat) (v : Byte) : (s.setByte .out a v).S = s.S := rfl
@[simp] theorem State.setByte_out_width (s : State) (a : Nat) (v : Byte) : (s.setByte .out a v).width = s.width := rfl
@[simp] theorem State.setByte_out_mlen (s : State) (a : Nat) (v : Byte) : (s.setByte .out a v).mlen = s.mlen := rfl
@[simp] theorem State.setByte_out_dlen (s : State) (a : Nat) (v : Byte) : (s.setByte .out a v).dlen = s.dlen := rfl
@[simp] theorem State.setByte_out_fault (s : State) (a : Nat) (v : Byte) : (s.setByte .out a v).fault = s.fault := rfl
@[simp] theorem State.setByte_out_seq (s : State) (a : Nat) (v : Byte) : (s.setByte .out a v).seq = s.seq := rfl
@[simp] theorem State.setByte_out_msg (s : State) (a : Nat) (v : Byte) : (s.setByte .out a v).msg = s.msg := rfl
@[simp] theorem State.setByte_out_out (s : State) (a : Nat) (v : Byte) : (s.setByte .out a v).out =
    Memory.set s.out a v := rfl
@[simp] theorem State.setByte_out_era (s : State) (a : Nat) (v : Byte) : (s.setByte .out a v).era = s.era := rfl
@[simp] theorem State.setByte_out_draws (s : State) (a : Nat) (v : Byte) : (s.setByte .out a v).draws = s.draws := rfl
@[simp] theorem State.setByte_out_host (s : State) (a : Nat) (v : Byte) : (s.setByte .out a v).host = s.host := rfl
@[simp] theorem State.setByte_out_readData (s : State) (a : Nat) (v : Byte) : (s.setByte .out a v).readData =
    s.readData := rfl
@[simp] theorem State.setByte_out_params (s : State) (a : Nat) (v : Byte) : (s.setByte .out a v).params = s.params :=
    rfl

/-! ### Status accessors -/

theorem State.busy_eq_false {s : State} : s.busy = false ↔ s.seq = .idle := by
  unfold State.busy; cases s.seq <;> simp

theorem State.busy_eq_true {s : State} : s.busy = true ↔ ∃ w n, s.seq = .running w n := by
  unfold State.busy; cases s.seq <;> simp

theorem State.busy_of_running {s : State} {w : Word} {n : Nat} (h : s.seq = .running w n) : s.busy = true :=
  State.busy_eq_true.2 ⟨w, n, h⟩

theorem State.fatal_eq_false {s : State} : s.fatal = false ↔ s.fault = none := by
  simp [State.fatal]

@[simp] theorem State.finish_busy (s : State) : s.finish.busy = false := rfl
@[simp] theorem State.raiseFatal_busy (s : State) (c : Cause) : (s.raiseFatal c).busy = false := rfl
@[simp] theorem State.raiseFatal_fatal (s : State) (c : Cause) : (s.raiseFatal c).fatal = true := rfl
@[simp] theorem State.raiseFatal_causeCode (s : State) (c : Cause) : (s.raiseFatal c).causeCode = c.code := rfl
@[simp] theorem State.resetEvent_busy (s : State) : s.resetEvent.busy = false := rfl
@[simp] theorem State.resetEvent_fatal (s : State) : s.resetEvent.fatal = false := rfl
@[simp] theorem State.shakeDone_busy (s : State) : s.shakeDone.busy = false := rfl

end Sys2Proof.Machine
end

