-- ==== Sys2Proof/Laws/Ops.lean ====
section
/-! SUPPORT. What each shared operation can do: the frame of a permutation command, SHAKE128's four outcomes, a
command word run to completion, and the host's accesses. Provers cite these instead of unfolding the operations. -/

namespace Sys2Proof.Machine

/-! ### Commands -/

/-- A permutation command at a legal width completes, and this is all it does (41_step_mappings.md R110). -/
theorem State.permute_legal {s : State} (f : (w : Nat) → Lanes w → Lanes w) (h : s.widthLegal = true) :
    s.permute f = .next { s.finish with S := putArray (f s.laneSize (toArray s.laneSize s.S)) s.S } :=
  if_pos h

/-- A permutation command at an illegal width faults (60_exceptions.md R202). -/
theorem State.permute_illegal {s : State} (f : (w : Nat) → Lanes w → Lanes w) (h : s.widthLegal = false) :
    s.permute f = .next (s.raiseFatal .eWidth) := by
  simp [State.permute, h]

/-- The array function of a permutation command at lane size `w`. -/
def permutationOf : Instr → (w : Nat) → Lanes w → Lanes w
  | .theta => fun _ A => thetaMap A
  | .rho => fun _ A => rhoMap A
  | .pi => fun _ A => piMap A
  | .chi => fun _ A => chiMap A
  | .iota ir => fun _ A => iotaMap ir A
  | .round ir => fun _ A => rnd ir A
  | .keccakp nr => fun _ A => keccakRounds nr A
  | .shake128 => fun _ A => A

/-- Every permutation command is `permute` of its array function. -/
theorem exec_permutation {i : Instr} (h : i.isPermutation = true) (s : State) :
    exec i s = s.permute (permutationOf i) := by
  cases i <;> first | rfl | simp [Instr.isPermutation] at h

theorem length_permutationOf {i : Instr} {w : Nat} (A : Lanes w) (h : A.length = 25) :
    (permutationOf i w A).length = 25 := by
  cases i <;> simp [permutationOf, length_keccakRounds, h]

/-- SHAKE128's outcomes in the order of its checks (60_exceptions.md R206). -/
theorem execShake128_cases (s : State) :
    (s.widthLegal = false ∧ exec .shake128 s = .next (s.raiseFatal .eWidth)) ∨
    (s.widthLegal = true ∧ s.width.toNat ≠ 1600 ∧ exec .shake128 s = .next (s.raiseFatal .eUnsupported)) ∨
    (s.width.toNat = 1600 ∧ s.outOfRange = true ∧ exec .shake128 s = .next (s.raiseFatal .eRange)) ∨
    (s.width.toNat = 1600 ∧ s.outOfRange = false ∧ exec .shake128 s = .next s.shakeDone) := by
  simp only [exec, execShake128]
  by_cases h1 : s.widthLegal = true
  · by_cases h2 : s.width.toNat = 1600
    · by_cases h3 : s.outOfRange = true
      · exact .inr (.inr (.inl ⟨h2, h3, by simp [h1, h2, h3]⟩))
      · exact .inr (.inr (.inr ⟨h2, by simpa using h3, by simp [h1, h2, h3]⟩))
    · exact .inr (.inl ⟨h1, h2, by simp [h1, h2]⟩)
  · exact .inl ⟨by simpa using h1, by simp [h1]⟩

/-- What any command can do: it always completes (70_reset_and_hazards.md R242), by a fault that changes nothing
else, by changing `S` alone, or as SHAKE128 does. -/
theorem exec_cases (i : Instr) (s : State) :
    (∃ c, exec i s = .next (s.raiseFatal c)) ∨
    (i.isPermutation = true ∧ s.widthLegal = true ∧ ∃ S', exec i s = .next { s.finish with S := S' }) ∨
    (i = .shake128 ∧ s.width.toNat = 1600 ∧ s.outOfRange = false ∧ exec i s = .next s.shakeDone) := by
  by_cases hp : i.isPermutation = true
  · cases hw : s.widthLegal
    · exact .inl ⟨_, by rw [exec_permutation hp, State.permute_illegal _ hw]⟩
    · exact .inr (.inl ⟨hp, rfl, _, by rw [exec_permutation hp, State.permute_legal _ hw]⟩)
  · obtain rfl : i = .shake128 := by cases i <;> simp_all [Instr.isPermutation]
    rcases execShake128_cases s with ⟨-, h⟩ | ⟨-, -, h⟩ | ⟨-, -, h⟩ | ⟨h1, h2, h⟩
    · exact .inl ⟨_, h⟩
    · exact .inl ⟨_, h⟩
    · exact .inl ⟨_, h⟩
    · exact .inr (.inr ⟨rfl, h1, h2, h⟩)

/-- What an accepted word does: its command's meaning, or `E_OPCODE` (60_exceptions.md R203). -/
theorem runWord_cases (w : Word) (s : State) :
    (∃ i, decode w = .ok i ∧ runWord w s = exec i s) ∨
    (∃ e, decode w = .error e ∧ runWord w s = .next (s.raiseFatal .eOpcode)) := by
  unfold runWord
  cases h : decode w with
  | ok i => exact .inl ⟨i, rfl, rfl⟩
  | error e => exact .inr ⟨e, rfl, rfl⟩

/-! ### Bytes of the spaces -/

theorem State.byteAt_setByte_self (s : State) {sp : Space} {a : Nat} (v : Byte) (h : a < s.spaceSize sp) :
    (s.setByte sp a v).byteAt sp a = v := by
  cases sp with
  | st => exact stByte_setStByte_self s.S h v
  | msg => simp [State.byteAt, State.msgByte, Memory.get?_set_self]
  | out => simp [State.byteAt, State.outByte, Memory.get?_set_self]

theorem State.byteAt_setByte_other (s : State) {sp sp' : Space} {a x : Nat} (v : Byte) (hx : x < s.spaceSize sp')
    (h : sp' ≠ sp ∨ x ≠ a) : (s.setByte sp a v).byteAt sp' x = s.byteAt sp' x := by
  cases sp <;> cases sp' <;>
    simp_all [State.byteAt, State.setByte, State.msgByte, State.outByte, Memory.get?_set_other]
  exact stByte_setStByte_other s.S hx h v

@[simp] theorem State.setByte_busy (s : State) (sp : Space) (a : Nat) (v : Byte) : (s.setByte sp a v).busy = s.busy :=
    by
  cases sp <;> rfl

@[simp] theorem State.setByte_spaceSize (s : State) (sp sp' : Space) (a : Nat) (v : Byte) :
    (s.setByte sp a v).spaceSize sp' = s.spaceSize sp' := by
  cases sp <;> cases sp' <;> rfl

/-- A byte read draws a free value while busy and changes nothing else (20_memory.md R57, R59). -/
theorem State.readBytes_state (sp : Space) (n a : Nat) (s : State) :
    ∃ d, s.draws ≤ d ∧ (State.readBytes sp n a s).2 = { s with draws := d } := by
  induction n generalizing a s with
  | zero => exact ⟨s.draws, Nat.le_refl _, rfl⟩
  | succ n ih =>
    obtain ⟨d, hd, h⟩ := ih (a + 1) (s.readByte sp a).2
    refine ⟨d, ?_, ?_⟩
    · unfold State.readByte at hd; split at hd
      · simp only at hd; omega
      · exact hd
    · simp only [State.readBytes, h]
      unfold State.readByte; split <;> rfl

theorem State.readBytes_idle (sp : Space) (n a : Nat) {s : State} (h : s.busy = false) :
    (State.readBytes sp n a s).2 = s := by
  induction n generalizing a with
  | zero => rfl
  | succ n ih => simp [State.readBytes, State.readByte, h, ih]

/-- A byte write while busy is ignored (20_memory.md R59). -/
theorem State.writeBytes_busy (sp : Space) (n a v : Nat) {s : State} (h : s.busy = true) :
    State.writeBytes sp n a v s = s := by
  induction n generalizing a v with
  | zero => rfl
  | succ n ih => simp [State.writeBytes, State.writeByte, h, ih]

/-- What a write of bytes can change: `S`, or the one memory written, and that only while idle. -/
theorem State.writeBytes_frame (sp : Space) (n a v : Nat) (s : State) :
    ∃ S' m o, State.writeBytes sp n a v s = { s with S := S', msg := m, out := o } ∧
      (sp ≠ .st → S' = s.S) ∧ (sp ≠ .msg → m = s.msg) ∧ (sp ≠ .out → o = s.out) := by
  induction n generalizing a v s with
  | zero => exact ⟨s.S, s.msg, s.out, rfl, fun _ => rfl, fun _ => rfl, fun _ => rfl⟩
  | succ n ih =>
    obtain ⟨S', m, o, h, h1, h2, h3⟩ := ih (a + 1) (v / 256) (s.writeByte sp a (BitVec.ofNat 8 v))
    simp only [State.writeBytes]
    by_cases hb : s.busy = true
    · have hs : s.writeByte sp a (BitVec.ofNat 8 v) = s := by simp [State.writeByte, hb]
      rw [hs] at h h1 h2 h3 ⊢
      exact ⟨S', m, o, h, h1, h2, h3⟩
    · have hs : s.writeByte sp a (BitVec.ofNat 8 v) = s.setByte sp a (BitVec.ofNat 8 v) := by
        simp [State.writeByte, hb]
      rw [hs] at h h1 h2 h3 ⊢
      refine ⟨S', m, o, ?_, ?_, ?_, ?_⟩
      · rw [h]; cases sp <;> rfl
      · intro hne; rw [h1 hne]; cases sp <;> simp_all
      · intro hne; rw [h2 hne]; cases sp <;> simp_all
      · intro hne; rw [h3 hne]; cases sp <;> simp_all

/-- The memories keep their canonical form and their range under a write inside its space. -/
theorem State.writeBytes_memories (sp : Space) (n a v : Nat) {s : State} (hr : n = 0 ∨ a + n ≤ s.spaceSize sp)
    (h1 : Memory.wf s.msg = true) (h2 : Memory.below s.msgCap s.msg = true) (h3 : Memory.wf s.out = true)
    (h4 : Memory.below s.outCap s.out = true) :
    Memory.wf (State.writeBytes sp n a v s).msg = true ∧
    Memory.below s.msgCap (State.writeBytes sp n a v s).msg = true ∧
    Memory.wf (State.writeBytes sp n a v s).out = true ∧
    Memory.below s.outCap (State.writeBytes sp n a v s).out = true := by
  induction n generalizing a v s with
  | zero => exact ⟨h1, h2, h3, h4⟩
  | succ n ih =>
    have hr' : a + (n + 1) ≤ s.spaceSize sp := by omega
    simp only [State.writeBytes]
    by_cases hb : s.busy = true
    · simpa [State.writeByte, hb] using ih (a + 1) (v / 256) (.inr (by omega)) h1 h2 h3 h4
    · simp only [State.writeByte, hb, Bool.false_eq_true, if_false]
      cases sp with
      | st => exact ih (s := s.setByte .st a _) (a + 1) (v / 256) (.inr (by simp; omega)) h1 h2 h3 h4
      | msg =>
        exact ih (s := s.setByte .msg a _) (a + 1) (v / 256) (.inr (by simp; omega)) (Memory.wf_set _ _ _ h1)
          (Memory.below_set _ _ (show a < s.msgCap by simp only [State.spaceSize] at hr'; omega) h2) h3 h4
      | out =>
        exact ih (s := s.setByte .out a _) (a + 1) (v / 256) (.inr (by simp; omega)) h1 h2 (Memory.wf_set _ _ _ h3)
          (Memory.below_set _ _ (show a < s.outCap by simp only [State.spaceSize] at hr'; omega) h4)

/-! ### Register writes -/

theorem State.regWrite_busy {s : State} (off : Nat) (v : Word) (h : s.busy = true) : s.regWrite off v = s := by
  simp [State.regWrite, h]

/-- What a register write can change: one of the three control registers, or a command is accepted, and that only
while `FATAL = 0`. -/
theorem State.regWrite_cases (s : State) (off : Nat) (v : Word) :
    (∃ a b c, s.regWrite off v = { s with width := a, mlen := b, dlen := c }) ∨
    (off = 0 ∧ s.busy = false ∧ s.fatal = false ∧ s.regWrite off v =
      { s with seq := .running v (Config.busyTurns s.draws), draws := s.draws + 1 }) := by
  unfold State.regWrite
  split
  · exact .inl ⟨_, _, _, rfl⟩
  · split
    · unfold State.issue
      split
      · exact .inl ⟨_, _, _, rfl⟩
      · refine .inr ⟨rfl, ?_, ?_, rfl⟩ <;> simp_all
    · exact .inl ⟨_, _, _, rfl⟩
    · exact .inl ⟨_, _, _, rfl⟩
    · exact .inl ⟨_, _, _, rfl⟩
    · exact .inl ⟨_, _, _, rfl⟩

end Sys2Proof.Machine
end

