-- ==== Sys2Proof/Laws/PerInstr.lean ====
section
/-! SUPPORT. Laws of every command as syntax, one lemma per constructor. -/

namespace Sys2Proof.Laws

/-- Every command's word holds its opcode in `OP`, its operand modulo 256 in `IMM` and 0 in `ZERO`
(30_encoding.md R80, R86). -/
def EncodeFields.Statement (i : Instr) : Prop :=
  zeroOf (encode i) = 0 ∧ opOf (encode i) = opcodeOf i ∧ immOf (encode i) = (operandOf i % 256).toNat

theorem encodeFields_of_opcode (i : Instr) (h : opcodeOf i < 256) : EncodeFields.Statement i :=
  ⟨zeroOf_assemble h _, opOf_assemble h _, immOf_assemble h _⟩

theorem EncodeFields.theta : EncodeFields.Statement .theta := encodeFields_of_opcode _ (by decide)
theorem EncodeFields.rho : EncodeFields.Statement .rho := encodeFields_of_opcode _ (by decide)
theorem EncodeFields.pi : EncodeFields.Statement .pi := encodeFields_of_opcode _ (by decide)
theorem EncodeFields.chi : EncodeFields.Statement .chi := encodeFields_of_opcode _ (by decide)
theorem EncodeFields.iota (ir : Int) : EncodeFields.Statement (.iota ir) :=
  encodeFields_of_opcode _ (by simp [opcodeOf])
theorem EncodeFields.round (ir : Int) : EncodeFields.Statement (.round ir) :=
  encodeFields_of_opcode _ (by simp [opcodeOf])
theorem EncodeFields.keccakp (nr : Nat) : EncodeFields.Statement (.keccakp nr) :=
  encodeFields_of_opcode _ (by simp [opcodeOf])
theorem EncodeFields.shake128 : EncodeFields.Statement .shake128 := encodeFields_of_opcode _ (by decide)

end Sys2Proof.Laws
end

