-- ==== Sys2Proof/Laws/Step.lean ====
section
/-! SUPPORT. What one step can do: the inversion lemmas every invariant is derived from. -/

namespace Sys2Proof.Machine

/-- What an access that has a meaning does: it reads, writes a register, writes bytes, or resets. -/
theorem access_cases {h : HostAccess} {s t : State} (hn : access h s = .next t) :
    (h ≠ .reset ∧ ∃ d n, s.draws ≤ n ∧ t = { s with readData := d, draws := n }) ∨
    (∃ off v, h = .regWrite off v ∧ t = s.regWrite off v) ∨
    (∃ sp a n v, h = .write sp a n v ∧ (n = 0 ∨ a + n ≤ s.spaceSize sp) ∧ t = State.writeBytes sp n a v s) ∨
    (h = .reset ∧ t = s.resetEvent) := by
  have reg : ∀ off n (o : Host.Outcome State Fault Refusal) u, (regStop off n).getD o = .next u → o = .next u := by
    intro off n o u
    unfold regStop
    split_ifs <;> simp
  cases h with
  | regRead off =>
    have := reg _ _ _ _ hn
    exact .inl ⟨by simp, _, s.draws, Nat.le_refl _, by simpa using this.symm⟩
  | regWrite off v =>
    have := reg _ _ _ _ hn
    exact .inr (.inl ⟨off, v, rfl, by simpa using this.symm⟩)
  | regPart off n => simpa using reg _ _ _ _ hn
  | read sp a n =>
    obtain ⟨d, hd, hr⟩ := State.readBytes_state sp n a s
    simp only [access, State.spaceStop] at hn
    split_ifs at hn
    · simp at hn
    · rw [hr] at hn
      exact .inl ⟨by simp, _, d, hd, by simpa using hn.symm⟩
  | write sp a n v =>
    simp only [access, State.spaceStop] at hn
    split_ifs at hn with hc
    · simp at hn
    · exact .inr (.inr (.inl ⟨sp, a, n, v, rfl, by omega, by simpa using hn.symm⟩))
  | poll => exact .inl ⟨by simp, _, s.draws, Nat.le_refl _, by simpa [access] using hn.symm⟩
  | reset => exact .inr (.inr (.inr ⟨rfl, by simpa [access] using hn.symm⟩))

/-- An access that has a meaning leads to a next state (20_memory.md R55). -/
theorem access_legal {h : HostAccess} {s : State} (hl : HostAccess.legal s h = true) : ∃ t, access h s = .next t := by
  cases h with
  | regRead off =>
    simp only [HostAccess.legal, Bool.and_eq_true, decide_eq_true_eq] at hl
    exact ⟨_, by simp only [access, regStop]; rw [if_neg (by omega), if_neg (by omega)]; rfl⟩
  | regWrite off v =>
    simp only [HostAccess.legal, Bool.and_eq_true, decide_eq_true_eq] at hl
    exact ⟨_, by simp only [access, regStop]; rw [if_neg (by omega), if_neg (by omega)]; rfl⟩
  | regPart off n => simp [HostAccess.legal] at hl
  | read sp a n =>
    simp only [HostAccess.legal, decide_eq_true_eq] at hl
    exact ⟨_, by simp only [access, State.spaceStop]; rw [if_neg (by omega)]; rfl⟩
  | write sp a n v =>
    simp only [HostAccess.legal, decide_eq_true_eq] at hl
    exact ⟨_, by simp only [access, State.spaceStop]; rw [if_neg (by omega)]; rfl⟩
  | poll => exact ⟨_, rfl⟩
  | reset => exact ⟨_, rfl⟩

/-- What one step is: the engine completes its command, the host makes its next access, or nothing is left to do
(20_memory.md R58, 60_exceptions.md R217). -/
theorem step_cases (s : State) :
    (∃ w n, s.seq = .running w n ∧ engineNext s.host n = true ∧ s.hostMoves = false ∧ step s = runWord w s) ∨
    (s.hostMoves = true ∧ ∃ h rest, s.host = h :: rest ∧
      step s = access h { s with host := rest, seq := s.seq.landed }) ∨
    (s.seq = .idle ∧ s.host = [] ∧ step s = .next s) := by
  simp only [step, turn, State.hostMoves]
  cases hs : s.seq with
  | idle =>
    cases hh : s.host with
    | nil => exact .inr (.inr ⟨rfl, rfl, by simp [hostTurn, hh]⟩)
    | cons h rest => exact .inr (.inl ⟨rfl, h, rest, rfl, by simp [hostTurn, hh, hs]⟩)
  | running w n =>
    cases he : engineNext s.host n with
    | true => exact .inl ⟨w, n, rfl, he, by simp [he], by simp [he]⟩
    | false =>
      cases hh : s.host with
      | nil => simp [engineNext, hh] at he
      | cons h rest =>
        rw [hh] at he
        exact .inr (.inl ⟨by simp [he], h, rest, rfl, by simp [hostTurn, hh, hs, he]⟩)

end Sys2Proof.Machine
end

