-- ==== Sys2Proof/Tests/Slice0.lean ====
section
/-! SUPPORT. The model's own tests. Expected values are the spec's vectors (95_test_vectors.md), named in each
test's comment, never the model's own answers. The second part shows, for every statement with hypotheses, a
state and operands that meet them. -/

namespace Sys2Proof.Tests

open Sys2Proof.Machine

/-! ### Well-formedness: one ill-formed term for each check, and the ends of each range (30_encoding.md R80) -/

theorem test_wf_refuses_iota_above : (Instr.iota 128).wf = false := by decide
theorem test_wf_refuses_iota_below : (Instr.iota (-129)).wf = false := by decide
theorem test_wf_refuses_round_above : (Instr.round 128).wf = false := by decide
theorem test_wf_refuses_round_below : (Instr.round (-129)).wf = false := by decide
theorem test_wf_refuses_keccakp_above : (Instr.keccakp 256).wf = false := by decide
theorem test_assembler_refuses : assembleInstr? (.keccakp 256) = none := by decide
theorem test_wf_range_ends : [Instr.iota (-128), .iota 127, .round (-128), .round 127, .keccakp 0, .keccakp 255].all
    Instr.wf = true := by decide

/-! ### Decoding: words written out from 30_encoding.md R80 (ZERO 31:16, IMM 15:8, OP 7:0) -/

-- R83: OP 0x01 to 0x04 and 0x10 in format N.
theorem test_decode_theta : decode 0b00000000000000000000000000000001 = .ok .theta := by decide
theorem test_decode_rho : decode 0b00000000000000000000000000000010 = .ok .rho := by decide
theorem test_decode_pi : decode 0b00000000000000000000000000000011 = .ok .pi := by decide
theorem test_decode_chi : decode 0b00000000000000000000000000000100 = .ok .chi := by decide
theorem test_decode_shake128 : decode 0b00000000000000000000000000010000 = .ok .shake128 := by decide
-- R86: IOTA -1 is 0x0000FF05; V-DEC-4: ROUND -128 is 0x00008006; R86: KECCAKP 24 is 0x00001807.
theorem test_decode_iota : decode 0b00000000000000001111111100000101 = .ok (.iota (-1)) := by decide
theorem test_decode_round : decode 0b00000000000000001000000000000110 = .ok (.round (-128)) := by decide
theorem test_decode_keccakp : decode 0b00000000000000000001100000000111 = .ok (.keccakp 24) := by decide
-- V-DEC-9 to V-DEC-16: reserved words.
theorem test_decode_reserved : decode 0x00000000 = .error .opcode ∧ decode 0x00000101 = .error .immediate ∧
    decode 0x00000110 = .error .immediate ∧ decode 0x00010001 = .error .zeroField ∧
    decode 0x00000008 = .error .opcode ∧ decode 0x00000011 = .error .opcode ∧
    decode 0xFFFFFFFF = .error .zeroField ∧ decode 0x80000007 = .error .zeroField := by decide
theorem test_decodeTableWord : decodeTableWord 32 0x00002405 = some (.iota 36) := by decide
-- R86: KECCAKF b for the smallest and the largest width.
theorem test_keccakf : Instr.keccakf 25 = .keccakp 12 ∧ Instr.keccakf 1600 = .keccakp 24 := by decide
theorem test_text : (Instr.iota (-1)).text = "IOTA -1" ∧ (Instr.round 23).text = "ROUND 23" := by decide

/-! ### Commands -/

/-- An idle state at lane size `w` whose lanes are the given numbers (10_state.md R23), lane number 0 first. -/
def laneState (w : Nat) (lanes : List Nat) : State :=
  { State.reset with width := BitVec.ofNat 32 (25 * w), S := toSequence 1600 (lanes.map (BitVec.ofNat w)) }

/-- The lanes after one command, as numbers. -/
def lanesAfter (w : Nat) (i : Instr) (s : State) : List Nat :=
  match exec i s with
  | .next t => (toArray w t.S).map BitVec.toNat
  | .fault _ => []
  | .refused _ => []

/-- A value of the next state, if there is one. -/
def after {α : Type} (o : Host.Outcome State Fault Refusal) (f : State → α) : Option α :=
  match o with
  | .next t => some (f t)
  | .fault _ => none
  | .refused _ => none

-- V-THETA-2: both wrap-arounds.
theorem test_theta_wraps : lanesAfter 64 .theta (laneState 64 (List.replicate 14 0 ++ [0x8000000000000000])) =
    [0x8000000000000000, 0, 0, 1, 0, 0x8000000000000000, 0, 0, 1, 0, 0x8000000000000000, 0, 0, 1, 0x8000000000000000,
     0x8000000000000000, 0, 0, 1, 0, 0x8000000000000000, 0, 0, 1, 0] := by decide +kernel
-- V-THETA-4: one-bit lanes.
theorem test_theta_one_bit_lanes : lanesAfter 1 .theta (laneState 1 [1]) =
    [1, 1, 0, 0, 1, 0, 1, 0, 0, 1, 0, 1, 0, 0, 1, 0, 1, 0, 0, 1, 0, 1, 0, 0, 1] := by decide +kernel
-- V-RHO-2: bits 0 and 63 in every lane.
theorem test_rho_wraps : lanesAfter 64 .rho (laneState 64 (List.replicate 25 0x8000000000000001)) =
    [0x8000000000000001, 0x0000000000000003, 0x6000000000000000, 0x0000000018000000, 0x000000000C000000,
     0x0000001800000000, 0x0000180000000000, 0x0000000000000060, 0x00C0000000000000, 0x0000000000180000,
     0x000000000000000C, 0x0000000000000600, 0x00000C0000000000, 0x0000000003000000, 0x000000C000000000,
     0x0000030000000000, 0x0000300000000000, 0x000000000000C000, 0x0000000000300000, 0x0000000000000180,
     0x0000000000060000, 0x0000000000000006, 0x3000000000000000, 0x0180000000000000, 0x0000000000006000] := by
  decide +kernel
-- V-RHO-3: offsets reduced mod 8.
theorem test_rho_reduces_offsets : lanesAfter 8 .rho (laneState 8 (List.replicate 25 1)) =
    [0x01, 0x02, 0x40, 0x10, 0x08, 0x10, 0x10, 0x40, 0x80, 0x10, 0x08, 0x04, 0x08, 0x02, 0x80, 0x02, 0x20, 0x80, 0x20,
     0x01, 0x04, 0x04, 0x20, 0x01, 0x40] := by decide +kernel
-- V-PI-1.
theorem test_pi_moves_lanes : lanesAfter 64 .pi (laneState 64 (List.range 25)) =
    [0x00, 0x06, 0x0C, 0x12, 0x18, 0x03, 0x09, 0x0A, 0x10, 0x16, 0x01, 0x07, 0x0D, 0x13, 0x14, 0x04, 0x05, 0x0B, 0x11,
     0x17, 0x02, 0x08, 0x0E, 0x0F, 0x15] := by decide +kernel
-- V-PI-2.
theorem test_pi_one_bit_lanes : lanesAfter 1 .pi (laneState 1 ((List.range 25).map fun n => n % 2)) =
    [0, 0, 0, 0, 0, 1, 1, 0, 0, 0, 1, 1, 1, 1, 0, 0, 1, 1, 1, 1, 0, 0, 0, 1, 1] := by decide +kernel
-- V-CHI-1.
theorem test_chi_row : lanesAfter 64 .chi (laneState 64
      [0xFFFFFFFFFFFFFFFF, 0x00000000FFFFFFFF, 0x0F0F0F0F0F0F0F0F, 0x3333333333333333, 0x5555555555555555]) =
    [0xF0F0F0F0FFFFFFFF, 0x30303030CFCFCFCF, 0x4B4B4B4B4B4B4B4B, 0x9999999999999999, 0x5555555555555555] ++
      List.replicate 20 0 := by decide +kernel
-- V-CHI-3: wrap-around to x = 3.
theorem test_chi_wraps : lanesAfter 8 .chi (laneState 8 (List.replicate 15 0 ++ [0xFF])) =
    List.replicate 15 0 ++ [0xFF, 0, 0, 0xFF, 0, 0, 0, 0, 0, 0] := by decide +kernel
-- V-IOTA-4: a negative index.
theorem test_iota_negative : lanesAfter 64 (.iota (-1)) (laneState 64 []) = 0x8A :: List.replicate 24 0 := by
  decide +kernel
-- V-IOTA-9: the last round of the 800-bit schedule.
theorem test_iota_narrow : lanesAfter 32 (.iota 21) (laneState 32 []) = 0x8080 :: List.replicate 24 0 := by
  decide +kernel
-- V-RND-1: ROUND 1 after ROUND 0 on the zero state.
theorem test_round_one : lanesAfter 64 (.round 1) (laneState 64 [1]) =
    [0x0000000000008083, 0x0000100000000000, 0x0000000000008000, 0x0000000000000001, 0x0000100000008000,
     0x0000000000000000, 0x0000200000200000, 0x0000000000000000, 0x0000200000000000, 0x0000000000200000,
     0x0000000000000002, 0x0000000000000200, 0x0000000000000000, 0x0000000000000202, 0x0000000000000000,
     0x0000000010000400, 0x0000000000000000, 0x0000000000000400, 0x0000000010000000, 0x0000000000000000,
     0x0000010000000000, 0x0000000000000000, 0x0000010000000004, 0x0000000000000000, 0x0000000000000004] := by
  decide +kernel
-- V-RND-3: ST[0..3] = 170F1601 and then ROUND 2 gives 7234C401, at width 25.
theorem test_round_one_bit_lanes : after (exec (.round 2) { State.reset with width := 25, S := 0x01160F17 })
    (fun t => (List.range 4).map fun k => stByte t.S k) = some [0x72, 0x34, 0xC4, 0x01] := by decide +kernel
-- V-KP-1: lanes (0,0), (1,0) and (4,4) of Keccak-p[1600,24] of the zero state.
theorem test_keccakp_full : after (exec (.keccakp 24) (laneState 64 []))
    (fun t => [0, 1, 24].map fun n => ((toArray 64 t.S).getD n 0).toNat) =
    some [0xF1258F7940E1DDE7, 0x84D5CCF933C0478A, 0xEAF1FF7B5CECA249] := by decide +kernel
-- V-KP-11 (by 10_state.md R21, see assumption 21): width 25 on bytes 0xAA, the bits from 25 on kept.
theorem test_keccakp_keeps_inactive_bits : after (exec (.keccakp 12)
      { State.reset with width := 25, S := 0xAAAAAAAAAA })
    (fun t => (List.range 5).map fun k => stByte t.S k) = some [0x7F, 0x77, 0x01, 0xAB, 0xAA] := by decide +kernel

/-- An engine with 1024 bytes of message and of output memory. -/
def caps : Config.Params := { msgCap := 1024, outCap := 1024 }

/-- SHAKE128's operands for the message "abc" and 32 bytes of output. -/
def abcState : State :=
  { State.reset with mlen := 3, dlen := 32, msg := [(0, 0x61), (1, 0x62), (2, 0x63)], params := caps }

-- V-SH-2: the digest of "abc".
theorem test_shake128_abc : after (exec .shake128 abcState) (fun t => (List.range 32).map t.outByte) = some
    [0x58, 0x81, 0x09, 0x2d, 0xd8, 0x18, 0xbf, 0x5c, 0xf8, 0xa3, 0xdd, 0xb7, 0x93, 0xfb, 0xcb, 0xa7, 0x40, 0x97, 0xd5,
     0xc5, 0x26, 0xa6, 0xd3, 0x5f, 0x97, 0xb8, 0x33, 0x51, 0x94, 0x0f, 0x2c, 0xc8] := by decide +kernel
-- V-FLT-6: E_UNSUPPORTED before E_RANGE.
theorem test_shake128_unsupported_first : after
    (exec .shake128 { State.reset with width := 25, mlen := 1025, params := caps }) State.statusWord =
    some 0x00000302 := by decide

/-! ### Constants (41_step_mappings.md R112 to R118) and conversions (40_bit_buffer.md) -/

-- R113 against the table of R114.
theorem test_rho_offsets : (List.range 24).all (fun t => rhoOffset (rhoVisit t).1 (rhoVisit t).2 ==
    (t + 1) * (t + 2) / 2) = true := by decide
-- R118: RC(7), RC(-2) and RC(36).
theorem test_roundConstant : roundConstant 64 7 = 0x8000000000008009 ∧ roundConstant 64 (-2) = 0x8002 ∧
    roundConstant 64 36 = 0x80 := by decide +kernel
-- V-BB-2, V-BB-3, V-BB-5.
theorem test_bit_buffer : hexOf (bitsOf [0x01, 0x80, 0xA5]) = some "0180a5".toList ∧
    bytesOf [true, false, true] = none ∧ (bitsOf [0x1F, 0x80]).length = 16 := by decide +kernel
-- 43_padding.md R152, rows (8, 5) and (3, 2).
theorem test_pad : pad 8 5 = [true, false, true] ∧ pad 3 2 = [true, false, false, true] := by decide
-- 44_sponge.md R167 and V-SP-2: the toy sponge, across a squeeze boundary and with two blocks.
theorem test_toy_sponge : sponge (b := 25) (keccakP 1 12) pad 8 [true, false, true] 12 =
    [false, true, false, false, true, false, false, false, true, true, false, true] ∧
    sponge (b := 25) (keccakP 1 12) pad 8 [true, false, true, true, false, false, true] 8 =
    [false, true, false, true, true, false, false, false] := by decide +kernel

/-! ### Steps (95_test_vectors.md section 3.2 and program P4) -/

-- P4: THETA at WIDTH = 300 faults, S stays.
theorem test_step_width_fault : after (step (({ State.reset with width := 300, S := 1 }).withFetchWord 32 0x01))
    (fun t => (t.statusWord, t.S)) = some (0x00000102, 1) := by decide +kernel
-- V-FLT-4: a reserved word at an illegal width.
theorem test_step_opcode_first : after (step (({ State.reset with width := 300 }).withFetchWord 32 0x00))
    State.statusWord = some 0x00000202 := by decide
-- P4: a command written while FATAL = 1 is ignored.
theorem test_step_fatal_ignores_commands : after
    (step { State.reset with fault := some .eWidth, host := [.regWrite 0x00 0x00000001] })
    (fun t => (t.statusWord, t.seq)) = some (0x00000102, .idle) := by decide
-- P4: the offset of WIDTH; 300 is accepted.
theorem test_step_width_write : after (step { State.reset with host := scriptWr .width 300 }) State.width =
    some 300 := by decide
-- V-BB-9: ST[8] = 0x02 is S[65].
theorem test_step_window : after (step { State.reset with host := scriptWrb .st 8 0x02 })
    (fun t => t.S == 1 <<< 65) = some true := by decide +kernel
-- 70_reset_and_hazards.md R236: the very next read of STATUS shows BUSY = 1 or the final state.
theorem test_step_busy_status : after
    (step { State.reset with seq := .running 0x01 1, host := [.regRead 0x04] }) State.readData = some 1 := by decide
-- 20_memory.md R55: the byte at the lowest address is the least significant byte of the bus word.
theorem test_step_wide_read : after (step { State.reset with S := 0x0201, host := [.read .st 0 2] }) State.readData =
    some 0x0201 := by decide +kernel
-- R86: `cmd` is a CMD write and the poll that waits for the command: two steps after the write it has run.
theorem test_run_cmd : after (Host.Core.run core 3 { State.reset with S := 1, host := scriptCmd .theta })
    (fun t => (t.busy, t.host, stByte t.S 8, stByte t.S 32)) = some (false, [], 0x01, 0x02) := by decide +kernel

/-! ### Witnesses: for each statement with hypotheses, states and operands that meet all of them, at the ends of
their ranges -/

/-- An idle engine with 1024 bytes of each memory and the accesses `hs` ahead. -/
def idleWith (hs : List HostAccess) : State := { State.reset with host := hs, params := caps }

/-- The same engine running command word `v`, with `n` accesses to land first. -/
def busyWith (v : Word) (n : Nat) (hs : List HostAccess) : State := { idleWith hs with seq := .running v n }

/-- The same engine after a fault. -/
def fatalWith (c : Cause) (hs : List HostAccess) : State := { idleWith hs with fault := some c }

/-- The same engine with the three control registers set. -/
def regsWith (width mlen dlen : Word) : State := { idleWith [] with width := width, mlen := mlen, dlen := dlen }

theorem test_meets_DecodeOfEncodeIsTheCommand : (Instr.iota (-128)).wf = true ∧ (Instr.round 127).wf = true ∧
    (Instr.keccakp 255).wf = true ∧ Instr.shake128.wf = true := by decide
theorem test_meets_EncodeOfDecodeIsTheWord : decode 0x0000FF07 = .ok (.keccakp 255) ∧
    decode 0x00008005 = .ok (.iota (-128)) := by decide
theorem test_meets_WordIsCommandOfRowIffItMatches : opcodeRows[6]? = some ⟨0x00000007, 0xFFFF00FF⟩ ∧
    (0x0000FF07 : Word) &&& 0xFFFF00FF = 0x00000007 ∧ rowCommand 6 (immOf 0x0000FF07) = some (.keccakp 255) := by
  decide
-- `atWidth`, in THETA, RHO, PI, CHI, IOTA, ROUND, PermutationsNeither... and KECCAKP: the widest and the narrowest.
theorem test_meets_atWidth : (idleWith []).atWidth 64 ∧ (regsWith 25 0 0).atWidth 1 ∧ (regsWith 800 0 0).atWidth 32 := by
  decide +kernel
theorem test_meets_KeccakpRunsTheLastRounds : (6 ≤ 6 ∧ (idleWith []).atWidth (2 ^ 6)) ∧
    (0 ≤ 6 ∧ (regsWith 25 0 0).atWidth (2 ^ 0)) := by decide +kernel
theorem test_meets_RoundConstantHasRcBits : (∀ j ≤ 6, (4 : Nat) ≠ 2 ^ j - 1) ∧ 4 < 2 ^ 6 := by decide
-- Two states that agree on `S[0..24]` and differ in `S[25]`.
theorem test_meets_PermutationsNeitherReadNorWriteInactiveBits : (Instr.keccakp 12).isPermutation = true ∧
    (∀ k < 25 * 1, (regsWith 25 0 0).S.getLsbD k = { regsWith 25 0 0 with S := 0x2000000 }.S.getLsbD k) ∧
    (regsWith 25 0 0).S.getLsbD 25 ≠ { regsWith 25 0 0 with S := 0x2000000 }.S.getLsbD 25 := by decide +kernel
theorem test_meets_BitsAndBytesAreInverse : (List.replicate 16 true).length % 8 = 0 ∧ ([] : List Bool).length % 8 = 0 ∧
    [true].length % 8 ≠ 0 := by decide
-- Each clause on its own: 8 divides m + 2, m + 1 and m.
theorem test_meets_PaddingFillsToAMultipleOfTheRate : 6 % 8 + 2 = 8 ∧ 7 % 8 + 1 = 8 ∧ 0 % 8 = 0 ∧ 2 ≤ 8 ∧
    0 % 1 + 1 = 1 := by decide
-- The toy sponge's parameters (44_sponge.md R167) and SHAKE128's.
theorem test_meets_sponge_rates : (0 < 8 ∧ 8 < 25) ∧ (0 < shakeRate ∧ shakeRate < 1600) ∧ 8 ≤ 12 := by decide
-- SHAKE128's hypotheses at both ends of both lengths.
theorem test_meets_shake_lengths : [regsWith 1600 0 0, regsWith 1600 1024 1024].all (fun s =>
    s.width.toNat == 1600 && decide (s.mlen.toNat ≤ s.msgCap) && decide (s.dlen.toNat ≤ s.outCap)) = true := by decide
-- Two states with the same message byte, different outputs lengths and different `S` and bytes past the message.
theorem test_meets_ShakeOutputDependsOnTheMessageAlone :
    let s : State := { regsWith 1600 1 1 with msg := [(0, 0x61)] }
    let s' : State := { regsWith 1600 1 32 with msg := [(0, 0x61), (1, 0x62)], S := 7 }
    s.mlen = s'.mlen ∧ s.dlen.toNat ≤ s'.dlen.toNat ∧ s.mlen.toNat ≤ s.msgCap ∧ s'.dlen.toNat ≤ s'.outCap ∧
      ∀ a < s.mlen.toNat, s.msgByte a = s'.msgByte a := by decide +kernel
theorem test_meets_IllegalWidthFaultsEveryCommand : (regsWith 0 0 0).width.toNat ∉ legalWidths ∧
    (regsWith 1601 0 0).width.toNat ∉ legalWidths ∧ (idleWith [.regWrite 0x08 300]).seq = .idle := by decide
theorem test_meets_WordMatchingNoRowFaults : (busyWith 0x101 0 []).hostMoves = false ∧
    ∀ row ∈ opcodeRows, (0x101 : Word) &&& row.mask ≠ row.pattern := by decide
theorem test_meets_WordMatchingNoRowFaults_write : (idleWith [.regWrite 0x00 0x101, .poll]).busy = false ∧
    (idleWith [.regWrite 0x00 0x101, .poll]).fatal = false := by decide
theorem test_meets_ShakeAtANarrowWidthFaults : (regsWith 25 0 0).width.toNat ∈ [25, 50, 100, 200, 400, 800] ∧
    (regsWith 800 0 0).width.toNat ∈ [25, 50, 100, 200, 400, 800] := by decide
theorem test_meets_ShakeBeyondTheMemoriesFaults : (regsWith 1600 1025 0).msgCap < 1025 ∧
    (regsWith 1600 0 1025).outCap < 1025 := by decide
-- The clauses in order: ignored while faulted and while busy; reserved word; illegal, narrow width; range; none.
theorem test_meets_ChecksAreMadeInTheFixedOrder :
    ((fatalWith .eRange [.regWrite 0 1]).hostMoves = true ∧ (fatalWith .eRange []).fatal = true) ∧
    ((busyWith 0x10 1 [.regWrite 0 1]).hostMoves = true ∧ (busyWith 0x10 1 []).busy = true) ∧
    (busyWith 0x10 0 [.regWrite 0 1]).hostMoves = false ∧ decode 0 = .error .opcode ∧
    (regsWith 300 0 0).widthLegal = false ∧ (regsWith 200 1025 0).atWidth 8 ∧
    ((regsWith 1600 1025 0).atWidth 64 ∧ (regsWith 1600 1025 0).msgCap < 1025) ∧
    ((regsWith 1600 1024 1024).atWidth 64 ∧ (regsWith 1600 1024 1024).msgCap = 1024) := by decide +kernel
theorem test_meets_FaultChangesStatusAlone : (busyWith 0 0 []).hostMoves = false ∧
    after (step (busyWith 0 0 [])) State.fault = some (some .eOpcode) ∧ (busyWith 0 0 []).fault = none := by
  decide +kernel
-- Every kind of access, each at its highest address: the access has a meaning and a faulted engine makes it.
theorem test_meets_OnlyResetClearsAFault : [HostAccess.reset, .poll, .regWrite 0x00 1, .regWrite 0x08 25,
      .regWrite 0x0C 1, .regWrite 0x10 1, .regRead 0x1C, .write .st 199 1 5, .write .msg 1023 1 5, .write .out 1023 1 5,
      .read .st 199 1, .read .msg 1023 1, .read .out 1023 1].all (HostAccess.legal (fatalWith .eWidth [])) = true ∧
    (fatalWith .eWidth [.reset]).fault = some .eWidth ∧ (fatalWith .eWidth [.reset]).seq = .idle := by decide
theorem test_meets_StatusWordHasItsFields : (idleWith []).fatal = false ∧ (fatalWith .eRange []).fatal = true ∧
    (idleWith [.regRead 4]).hostMoves = true ∧ (busyWith 1 1 [.regWrite 4 0]).hostMoves = true := by decide
theorem test_meets_ResetLeavesTheResetValues : (busyWith 1 1 [.reset]).hostMoves = true ∧
    (fatalWith .eRange [.reset]).hostMoves = true ∧ (idleWith []).seq = .idle := by decide

theorem test_idle_inv : (idleWith []).Inv :=
  ⟨by decide, by decide, by decide, by decide, by decide, by decide⟩
theorem test_meets_StepKeepsTheInvariant : (idleWith []).Inv ∧ step (idleWith []) = .next (idleWith []) :=
  ⟨test_idle_inv, rfl⟩
theorem test_meets_LegalHostNeverStopsTheMachine :
    (busyWith 0x10 1 [.read .msg 1020 4, .reset, .regWrite 0 7, .poll]).hostLegal = true := by decide
theorem test_meets_BusyEndsAfterFinitelyManySteps : (busyWith 0x10 2 [.regRead 4, .regRead 4, .regRead 4]).seq =
    .running 0x10 2 ∧ (busyWith 0x10 2 [.regRead 4, .regRead 4, .regRead 4]).hostLegal = true := by decide
theorem test_meets_StepRunsTheAcceptedCommand : engineNext [] 5 = true ∧ engineNext [.poll] 5 = true ∧
    engineNext [.regRead 4] 0 = true ∧ decode 0x00001807 = .ok (.keccakp 24) := by decide
theorem test_meets_ScriptCommandLineRunsTheCommand : (Instr.iota (-128)).wf = true ∧
    (idleWith (scriptCmd (.iota (-128)) ++ [.regRead 4])).busy = false ∧
    (idleWith (scriptCmd (.iota (-128)) ++ [.regRead 4])).fatal = false := by decide
-- A state `withFetchWord` makes is one whose next step is the engine's.
theorem test_withFetchWord_hypotheses : (State.reset.withFetchWord 32 0x10).seq = .running 0x10 0 ∧
    (State.reset.withFetchWord 32 0x10).hostMoves = false := by decide
theorem test_meets_StepMakesTheNextHostAccess : (idleWith [.poll]).hostMoves = true ∧
    (busyWith 1 1 [.regRead 4]).hostMoves = true := by decide
theorem test_meets_CmdWriteIssuesTheWord : ((idleWith [.regWrite 0 1]).hostMoves = true ∧
      (idleWith [.regWrite 0 1]).busy = false ∧ (idleWith [.regWrite 0 1]).fatal = false) ∧
    ((busyWith 1 1 [.regWrite 0 1]).hostMoves = true ∧ (busyWith 1 1 [.regWrite 0 1]).busy = true) ∧
    ((fatalWith .eWidth [.regWrite 0 1]).hostMoves = true ∧ (fatalWith .eWidth [.regWrite 0 1]).fatal = true) ∧
    (idleWith [.regRead 0]).hostMoves = true := by decide
theorem test_meets_ControlRegistersReadBack : (idleWith [.regWrite 0x10 7, .regRead 0x10]).seq = .idle ∧
    0x10 ∈ [0x08, 0x0C, 0x10] := by decide
theorem test_meets_ReservedOffsetsReadZeroAndIgnoreWrites : (idleWith [.regRead 0x14]).hostMoves = true ∧
    (busyWith 1 1 [.regWrite 0x1C 7]).hostMoves = true ∧ 0x1C ∈ [0x14, 0x18, 0x1C] := by decide
theorem test_meets_WindowByteIsEightStateBits : (idleWith [.read .st 0 1]).seq = .idle ∧
    (idleWith [.write .st 199 1 255]).seq = .idle ∧ 199 < 200 := by decide
theorem test_meets_WriteIsItsByteWrites : 1020 + 4 ≤ (idleWith [.write .msg 1020 4 1]).spaceSize .msg ∧
    196 + 4 ≤ (idleWith [.write .st 196 4 1]).spaceSize .st ∧ 1023 + 1 ≤ (idleWith []).spaceSize .out := by decide
theorem test_meets_ReadsReturnTheBytesAndChangeNothing : 1020 + 4 ≤ (idleWith [.read .out 1020 4]).spaceSize .out ∧
    [HostAccess.poll, .regRead 4, .read .st 199 1].all (HostAccess.legal (idleWith [])) = true ∧
    (idleWith [.poll, .poll]).seq = .idle := by decide
theorem test_meets_AccessesWhileBusyChangeNothing : [HostAccess.regWrite 0 1, .write .st 199 1 1, .regRead 8,
      .regRead 12, .regRead 16, .regRead 4, .read .out 1023 1].all (fun h =>
    (busyWith 1 1 [h]).hostMoves && HostAccess.legal (busyWith 1 1 [h]) h) = true ∧ (busyWith 1 1 []).busy = true := by
  decide
theorem test_busy_inv : (busyWith 1 1 [.regRead 4]).Inv :=
  ⟨by decide, by decide, by decide, by decide, by decide, by decide⟩
theorem test_meets_AccessesOutsideTheEngineStop : [HostAccess.regRead 0x20, .regWrite 0x20 1, .regRead 0x1E,
      .regWrite 1 1, .regPart 0 1, .regPart 0x1F 2, .read .st 200 1, .write .msg 1021 4 1].all (fun h =>
    (idleWith [h]).hostMoves && !HostAccess.legal (idleWith [h]) h) = true := by decide

end Sys2Proof.Tests
end

/-! ## What the host's turn does

One equation per host access that has a meaning, for a state in which the host moves (20_memory.md R58). -/

namespace Sys2Proof.Machine

/-! ### The step is the host's access -/

/-- When the host moves, the step is its next access, which is used up (20_memory.md R58 (c)). -/
theorem step_eq_access {s : State} {h : HostAccess} {rest : List HostAccess} (hm : s.hostMoves = true)
    (hh : s.host = h :: rest) : step s = access h { s with host := rest, seq := s.seq.landed } := by
  rcases step_cases s with ⟨-, -, -, -, hf, -⟩ | ⟨-, h', rest', hh', he⟩ | ⟨-, hn, -⟩
  · simp [hf] at hm
  · obtain ⟨rfl, rfl⟩ : h' = h ∧ rest' = rest := by simpa [hh'] using hh
    exact he
  · simp [hn] at hh

theorem State.hostMoves_of_idle {s : State} (hs : s.seq = .idle) : s.hostMoves = true := by
  simp [State.hostMoves, hs]

/-- While idle the step is the host's next access, and the sequencer stays idle. -/
theorem step_eq_access_of_idle {s : State} {h : HostAccess} {rest : List HostAccess} (hs : s.seq = .idle)
    (hh : s.host = h :: rest) : step s = access h { s with host := rest } := by
  rw [step_eq_access (State.hostMoves_of_idle hs) hh, hs, Sequencer.landed, ← hs]

/-- Using up an access that lands leaves `BUSY` as it is. -/
@[simp] theorem State.busy_landed (s : State) (rest : List HostAccess) :
    State.busy { s with host := rest, seq := s.seq.landed } = s.busy := by
  cases h : s.seq <;> simp [State.busy, Sequencer.landed, h]

/-- With no access left to make, an idle engine stays as it is (60_exceptions.md R217). -/
theorem step_of_idle_of_no_host {s : State} (hs : s.seq = .idle) (hh : s.host = []) : step s = .next s := by
  rcases step_cases s with ⟨w, n, hr, -⟩ | ⟨-, h, rest, hc, -⟩ | ⟨-, -, he⟩
  · simp [hr] at hs
  · simp [hc] at hh
  · exact he

/-- When the engine moves, the step is the accepted word's meaning (20_memory.md R58, R61). -/
theorem step_eq_runWord {s : State} {w : Word} {n : Nat} (hs : s.seq = .running w n)
    (he : engineNext s.host n = true) : step s = runWord w s := by
  simp [step, turn, hs, he]

/-! ### The accesses that have a meaning -/

/-- A whole aligned access to `REG` does not stop (20_memory.md R51, R55). -/
theorem regStop_eq_none {off : Nat} (h : off ≤ 0x1F) (h4 : off % 4 = 0) : regStop off 4 = none := by
  rw [regStop, if_neg (by omega), if_neg (by omega)]

theorem access_regRead {off : Nat} (h : off ≤ 0x1F) (h4 : off % 4 = 0) (s : State) :
    access (.regRead off) s = .next { s with readData := (s.regValue off).toNat } := by
  rw [access, regStop_eq_none h h4, Option.getD_none]

theorem access_regWrite {off : Nat} (h : off ≤ 0x1F) (h4 : off % 4 = 0) (v : Word) (s : State) :
    access (.regWrite off v) s = .next (s.regWrite off v) := by
  rw [access, regStop_eq_none h h4, Option.getD_none]

/-- Bytes inside their space do not stop (20_memory.md R50). -/
theorem State.spaceStop_eq_none {s : State} {sp : Space} {a n : Nat} (h : a + n ≤ s.spaceSize sp) :
    s.spaceStop sp a n = none := by
  rw [State.spaceStop, if_neg (by omega)]

/-- While idle a read of one byte returns it and changes nothing else (20_memory.md R57). -/
theorem access_read_byte_of_idle {s : State} {sp : Space} {a : Nat} (hb : s.busy = false)
    (h : a < s.spaceSize sp) : access (.read sp a 1) s = .next { s with readData := (s.byteAt sp a).toNat } := by
  simp [access, State.spaceStop_eq_none (n := 1) h, State.readBytes, State.readByte, hb]

/-- While idle a write of one byte replaces it (20_memory.md R55). -/
theorem access_write_byte_of_idle {s : State} {sp : Space} {a : Nat} (v : Byte) (hb : s.busy = false)
    (h : a < s.spaceSize sp) : access (.write sp a 1 v.toNat) s = .next (s.setByte sp a v) := by
  simp [access, State.spaceStop_eq_none (n := 1) h, State.writeBytes, State.writeByte, hb]

end Sys2Proof.Machine

/-! ## The invariant -/

namespace Sys2Proof.Machine

/-- A state with the memories, parameters and era of one that meets the invariant meets it too, if its draws have
not gone back and `BUSY` and `FATAL` exclude each other. -/
theorem State.Inv.of_memories_kept {s t : State} (h : s.Inv) (hbf : t.busy = true → t.fatal = false)
    (hm : t.msg = s.msg) (ho : t.out = s.out) (hp : t.params = s.params) (he : t.era = s.era)
    (hd : s.draws ≤ t.draws) : t.Inv where
  busy_not_fatal := hbf
  msg_wf := hm ▸ h.msg_wf
  msg_below := by rw [State.msgCap, hp, hm]; exact h.msg_below
  out_wf := ho ▸ h.out_wf
  out_below := by rw [State.outCap, hp, ho]; exact h.out_below
  era_drawn := he ▸ h.era_drawn.trans hd

theorem State.Inv.raiseFatal {s : State} (h : s.Inv) (c : Cause) : (s.raiseFatal c).Inv :=
  h.of_memories_kept (by simp) rfl rfl rfl rfl le_rfl

/-- Using up an access keeps the invariant. -/
theorem State.Inv.landed {s : State} (h : s.Inv) (rest : List HostAccess) :
    State.Inv { s with host := rest, seq := s.seq.landed } :=
  h.of_memories_kept (by rw [State.busy_landed]; exact h.busy_not_fatal) rfl rfl rfl rfl le_rfl

@[simp] theorem State.length_digest (s : State) (mlen dlen : Nat) : (s.digest mlen dlen).length = dlen := by
  simp [State.digest]

theorem State.outOfRange_eq_false {s : State} :
    s.outOfRange = false ↔ s.mlen.toNat ≤ s.msgCap ∧ s.dlen.toNat ≤ s.outCap := by
  simp [State.outOfRange]

/-- The digest is written below `OUTCAP` (60_exceptions.md R205), so `OUT` keeps its canonical form and range. -/
theorem State.Inv.shakeDone {s : State} (h : s.Inv) (hr : s.outOfRange = false) : s.shakeDone.Inv where
  busy_not_fatal := by simp
  msg_wf := h.msg_wf
  msg_below := h.msg_below
  out_wf := Memory.wf_setAll _ _ _ h.out_wf
  out_below := by
    have hd : 0 + (s.digest s.mlen.toNat s.dlen.toNat).length ≤ s.outCap := by
      simpa using (State.outOfRange_eq_false.1 hr).2
    exact Memory.below_setAll _ _ hd h.out_below
  era_drawn := h.era_drawn.trans (Nat.le_succ _)

theorem State.Inv.resetEvent {s : State} : s.resetEvent.Inv where
  busy_not_fatal := by simp
  msg_wf := rfl
  msg_below := rfl
  out_wf := rfl
  out_below := rfl
  era_drawn := le_rfl

/-- A write to a register keeps the invariant: a command is accepted only while `FATAL = 0` (10_state.md R28). -/
theorem State.Inv.regWrite {s : State} (h : s.Inv) (off : Nat) (v : Word) : (s.regWrite off v).Inv := by
  rcases s.regWrite_cases off v with ⟨a, b, c, he⟩ | ⟨-, -, hf, he⟩
  · rw [he]; exact h.of_memories_kept h.busy_not_fatal rfl rfl rfl rfl le_rfl
  · rw [he]; exact h.of_memories_kept (fun _ => hf) rfl rfl rfl rfl (Nat.le_succ _)

/-- A write inside its space keeps the invariant. -/
theorem State.Inv.writeBytes {s : State} (h : s.Inv) {sp : Space} {a n : Nat} (v : Nat)
    (hr : n = 0 ∨ a + n ≤ s.spaceSize sp) : (State.writeBytes sp n a v s).Inv := by
  obtain ⟨S', m, o, he, -⟩ := State.writeBytes_frame sp n a v s
  obtain ⟨hm, hmb, ho, hob⟩ := State.writeBytes_memories sp n a v hr h.msg_wf h.msg_below h.out_wf h.out_below
  rw [he] at hm hmb ho hob ⊢
  exact ⟨h.busy_not_fatal, hm, hmb, ho, hob, h.era_drawn⟩

/-- Every command keeps the invariant, whatever its outcome. -/
theorem exec_keeps_inv {i : Instr} {s t : State} (h : s.Inv) (he : exec i s = .next t) : t.Inv := by
  rcases exec_cases i s with ⟨c, hc⟩ | ⟨-, -, S', hc⟩ | ⟨-, -, hr, hc⟩ <;>
    obtain rfl : _ = t := by simpa [hc] using he
  · exact h.raiseFatal c
  · exact h.of_memories_kept (by simp [State.busy]) rfl rfl rfl rfl le_rfl
  · exact h.shakeDone hr

/-- An accepted word keeps the invariant, reserved or not. -/
theorem runWord_keeps_inv {w : Word} {s t : State} (h : s.Inv) (he : runWord w s = .next t) : t.Inv := by
  rcases runWord_cases w s with ⟨i, -, hi⟩ | ⟨e, -, hf⟩
  · exact exec_keeps_inv h (hi ▸ he)
  · obtain rfl : _ = t := by simpa [hf] using he
    exact h.raiseFatal _

/-- Every host access keeps the invariant. -/
theorem access_keeps_inv {a : HostAccess} {s t : State} (h : s.Inv) (he : access a s = .next t) : t.Inv := by
  rcases access_cases he with ⟨-, d, n, hn, rfl⟩ | ⟨off, v, -, rfl⟩ | ⟨sp, b, n, v, -, hr, rfl⟩ | ⟨-, rfl⟩
  · exact h.of_memories_kept h.busy_not_fatal rfl rfl rfl rfl hn
  · exact h.regWrite off v
  · exact h.writeBytes v hr
  · exact State.Inv.resetEvent

/-- Settles O41: a step is a word run, a host access or nothing, and each keeps the invariant. -/
theorem stepKeepsTheInvariant : Obligations.StepKeepsTheInvariant := by
  intro s t h he
  rcases step_cases s with ⟨w, n, -, -, -, hs⟩ | ⟨-, a, rest, -, hs⟩ | ⟨-, -, hs⟩
  · exact runWord_keeps_inv h (hs ▸ he)
  · exact access_keeps_inv (h.landed rest) (hs ▸ he)
  · obtain rfl : s = t := by simpa [hs] using he
    exact h

/-- Settles O40: at reset the memories list nothing and the engine is idle. -/
theorem resetMeetsTheInvariant : Obligations.ResetMeetsTheInvariant where
  busy_not_fatal := by simp [State.reset, State.busy]
  msg_wf := rfl
  msg_below := rfl
  out_wf := rfl
  out_below := rfl
  era_drawn := le_rfl

end Sys2Proof.Machine

/-! ## The state array and the active bits (10_state.md R21, R22) -/

namespace Sys2Proof.Machine

/-- The seven lane sizes are positive and at most 64 (00_scope.md R4). -/
theorem laneSize_bounds {w : Nat} (hw : w ∈ [1, 2, 4, 8, 16, 32, 64]) : 0 < w ∧ w ≤ 64 := by
  simp only [List.mem_cons, List.not_mem_nil, or_false] at hw
  omega

/-- Lane `(x,y)` lies in the active bits, and its number and the position in it can be read off a bit's index. -/
theorem laneIndex_spec {w x y z : Nat} (hx : x < 5) (hy : y < 5) (hz : z < w) :
    w * (5 * y + x) + z < 25 * w ∧ (w * (5 * y + x) + z) % w = z ∧ (w * (5 * y + x) + z) / w = 5 * y + x := by
  have hw : 0 < w := by omega
  refine ⟨?_, ?_, ?_⟩
  · calc w * (5 * y + x) + z < w * (5 * y + x) + w := by omega
      _ = w * (5 * y + x + 1) := by ring
      _ ≤ w * 25 := Nat.mul_le_mul_left w (by omega)
      _ = 25 * w := Nat.mul_comm _ _
  · rw [Nat.mul_add_mod, Nat.mod_eq_of_lt hz]
  · rw [Nat.mul_add_div hw, Nat.div_eq_of_lt hz, Nat.add_zero]

/-- Every active bit lies in one of the 25 lanes. -/
theorem laneIndex_surjective {w i : Nat} (hi : i < 25 * w) :
    i % w < w ∧ i / w % 5 < 5 ∧ i / w / 5 < 5 ∧ w * (5 * (i / w / 5) + i / w % 5) + i % w = i := by
  have hw : 0 < w := by omega
  have hq : i / w < 25 := (Nat.div_lt_iff_lt_mul hw).2 hi
  refine ⟨Nat.mod_lt _ hw, by omega, by omega, ?_⟩
  rw [Nat.div_add_mod, Nat.div_add_mod]

/-- `to_string` undoes `to_array` on the active bits and leaves 0 above (10_state.md R22). -/
theorem getLsbD_toSequence_toArray {w : Nat} (hw : 0 < w) (hw' : w ≤ 64) (X : BitVec 1600) (i : Nat) :
    (toSequence 1600 (toArray w X)).getLsbD i = (decide (i < 25 * w) && X.getLsbD i) := by
  rw [getLsbD_toSequence _ _ hw]
  by_cases hi : i < 25 * w
  · obtain ⟨hz, hx, hy, he⟩ := laneIndex_surjective hi
    have hb := getLsbD_at_toArray w X hx hy hz
    rw [he, Lanes.at, Nat.div_add_mod] at hb
    rw [hb, decide_eq_true hi, decide_eq_true (show i < 1600 by omega)]
  · have h25 : 25 ≤ i / w := (Nat.le_div_iff_mul_le hw).2 (by omega)
    simp [List.getD, List.getElem?_eq_none ((length_toArray w X).trans_le h25), hi]

/-- Settles O18: an index below `25w` is its lane number and its position in the lane. -/
theorem arrayIsAViewOfTheStateBits : Obligations.ArrayIsAViewOfTheStateBits := by
  intro w X hmem
  obtain ⟨hw, hw'⟩ := laneSize_bounds hmem
  refine ⟨fun x y hx hy z hz => ?_, fun i hi => laneIndex_surjective hi, getLsbD_toSequence_toArray hw hw' X⟩
  obtain ⟨hlt, hmod, hdiv⟩ := laneIndex_spec hx hy hz
  exact ⟨getLsbD_at_toArray w X hx hy hz, hlt, hmod, by omega, by omega⟩

/-- The array read from `S` depends on the active bits alone (10_state.md R21). -/
theorem toArray_congr {w : Nat} {S S' : BitVec 1600} (h : ∀ k < 25 * w, S.getLsbD k = S'.getLsbD k) :
    toArray w S = toArray w S' := by
  refine Lanes.ext_at (length_toArray w S) (length_toArray w S') fun x hx y hy => ?_
  refine BitVec.eq_of_getLsbD_eq fun z hz => ?_
  rw [getLsbD_at_toArray w S hx hy hz, getLsbD_at_toArray w S' hx hy hz]
  exact h _ (laneIndex_spec hx hy hz).1

theorem State.widthLegal_of_atWidth {s : State} {w : Nat} (h : s.atWidth w) : s.widthLegal = true := by
  obtain ⟨hmem, hwidth⟩ := h
  simp only [State.widthLegal, hwidth]
  simp only [List.mem_cons, List.not_mem_nil, or_false] at hmem
  rcases hmem with rfl | rfl | rfl | rfl | rfl | rfl | rfl <;> rfl

theorem State.laneSize_of_atWidth {s : State} {w : Nat} (h : s.atWidth w) : s.laneSize = w := by
  rw [State.laneSize, h.2, Nat.mul_div_cancel_left _ (by omega)]

/-- A permutation command at lane size `w` replaces the array by its array function (41_step_mappings.md R110). -/
theorem exec_permutation_atWidth {i : Instr} {s : State} {w : Nat} (hi : i.isPermutation = true)
    (h : s.atWidth w) :
    exec i s = .next { s.finish with S := putArray (permutationOf i w (toArray w s.S)) s.S } := by
  rw [exec_permutation hi, State.permute_legal _ (State.widthLegal_of_atWidth h), State.laneSize_of_atWidth h]

/-- Settles O17: the command reads the array, which is a function of the active bits, and writes it alone. -/
theorem permutationsNeitherReadNorWriteInactiveBits :
    Obligations.PermutationsNeitherReadNorWriteInactiveBits := by
  intro i s s' w hi h h' hS
  obtain ⟨hw, hw'⟩ := laneSize_bounds h.1
  have hlen : ∀ X : BitVec 1600, (permutationOf i w (toArray w X)).length = 25 := fun X =>
    length_permutationOf _ (length_toArray w X)
  refine ⟨_, _, exec_permutation_atWidth hi h, exec_permutation_atWidth hi h', fun k hk => ?_, fun k hk => ?_,
    fun k hk => ?_⟩
  · rw [getLsbD_putArray_low _ _ hw hw' hk, getLsbD_putArray_low _ _ hw hw' hk, toArray_congr hS]
  · exact getLsbD_putArray_high _ (hlen s.S) _ hw hk
  · exact getLsbD_putArray_high _ (hlen s'.S) _ hw hk

/-! ## What every command leaves (10_state.md R36) -/

/-- A permutation command keeps `S` from bit `WIDTH` on, also when it faults. -/
theorem exec_permutation_keeps_inactive {i : Instr} {s t : State} (hi : i.isPermutation = true)
    (he : exec i s = .next t) {k : Nat} (hk : s.width.toNat ≤ k) : t.S.getLsbD k = s.S.getLsbD k := by
  rw [exec_permutation hi] at he
  cases hl : s.widthLegal with
  | true =>
    obtain ⟨-, -, -, hw, -, hwidth⟩ := State.laneSize_of_legal hl
    obtain rfl := Host.Outcome.next.inj ((State.permute_legal _ hl).symm.trans he)
    exact getLsbD_putArray_high _ (length_permutationOf _ (length_toArray _ _)) _ hw (hwidth ▸ hk)
  | false =>
    obtain rfl := Host.Outcome.next.inj ((State.permute_illegal _ hl).symm.trans he)
    rfl

/-- SHAKE128 writes the digest to `OUT[0..DLEN-1]` (45_shake128.md R181). -/
theorem State.outByte_shakeDone_low {s : State} {k : Nat} (hk : k < s.dlen.toNat) :
    some (s.shakeDone.outByte k) = (s.digest s.mlen.toNat s.dlen.toNat)[k]? := by
  have hlen : k < (s.digest s.mlen.toNat s.dlen.toNat).length := by rwa [State.length_digest]
  simp only [State.outByte, State.shakeDone_out, Memory.get?_setAll]
  rw [if_pos (by omega), Nat.sub_zero, List.getElem?_eq_getElem hlen, Option.getD_some]

/-- SHAKE128 keeps `OUT` from `DLEN` on (45_shake128.md R181). -/
theorem State.outByte_shakeDone_high {s : State} {k : Nat} (hk : s.dlen.toNat ≤ k) :
    s.shakeDone.outByte k = s.outByte k := by
  simp only [State.outByte, State.shakeDone_out, State.shakeDone_era, Memory.get?_setAll, State.length_digest]
  rw [if_neg (by omega)]

/-- Settles O38: a fault, `S` alone replaced, or SHAKE128 done. -/
theorem commandsChangeOnlyTheirTargets : Obligations.CommandsChangeOnlyTheirTargets := by
  intro i s
  rcases exec_cases i s with ⟨c, he⟩ | ⟨hi, -, S', he⟩ | ⟨rfl, -, -, he⟩
  · exact ⟨_, he, rfl, fun _ => ⟨rfl, rfl, fun _ _ => rfl⟩, fun _ _ => rfl, fun _ => rfl,
      fun _ => ⟨rfl, rfl, rfl⟩⟩
  · exact ⟨_, he, rfl, fun _ => ⟨rfl, rfl, fun k hk => exec_permutation_keeps_inactive hi he hk⟩,
      fun _ _ => rfl, fun _ => rfl, fun hne => absurd rfl hne⟩
  · exact ⟨_, he, rfl, fun hp => by simp [Instr.isPermutation] at hp,
      fun _ hk => State.outByte_shakeDone_high hk, fun _ => rfl, fun hne => absurd rfl hne⟩

/-! ## SHAKE128's output (45_shake128.md R185, R186) -/

/-- The first `d` bits of the squeeze loop are the same for every longer request, given appends enough for each
(44_sponge.md R166). -/
theorem take_squeezeLoop {b : Nat} (f : BitVec b → BitVec b) {r : Nat} (hr : 0 < r) {k k' d e : Nat} (hk : d < k)
    (hk' : e < k') (hde : d ≤ e) (S : BitVec b) :
    (squeezeLoop f r k d S).take d = (squeezeLoop f r k' e S).take d := by
  induction k generalizing k' d e S with
  | zero => omega
  | succ k ih =>
    obtain ⟨k', rfl⟩ : ∃ j, k' = j + 1 := ⟨k' - 1, by omega⟩
    simp only [squeezeLoop, List.take_append, length_bitsFrom]
    by_cases hd : d ≤ r
    · simp [Nat.sub_eq_zero_of_le hd]
    · rw [if_neg hd, if_neg (by omega), ih (k' := k') (e := e - r) (by omega) (by omega) (by omega)]

/-- A shorter output of the squeeze is the start of a longer one (44_sponge.md R166). -/
theorem take_squeeze {b : Nat} (f : BitVec b → BitVec b) {r d e : Nat} (hr : 0 < r) (hde : d ≤ e) (S : BitVec b) :
    (squeeze f r e S).take d = squeeze f r d S := by
  rw [squeeze, List.take_take, Nat.min_eq_left hde, squeeze]
  exact (take_squeezeLoop f hr (Nat.lt_succ_self d) (Nat.lt_succ_self e) hde S).symm

/-- SHAKE128 of fewer bits is the start of SHAKE128 of more (45_shake128.md R186). -/
theorem take_shake128 (M : List Bool) {d e : Nat} (hde : d ≤ e) : (shake128 M e).take d = shake128 M d :=
  take_squeeze keccakF (by decide) hde _

/-- Byte `k` of a packed sequence depends on its own eight bits alone, not on what follows them nor on how many
bytes are packed (40_bit_buffer.md R101). -/
theorem getElem?_packBytes_take {n n' d k : Nat} (X : List Bool) (hn : k < n) (hn' : k < n') (hd : k < d) :
    (packBytes n (X.take (8 * d)))[k]? = (packBytes n' X)[k]? := by
  rw [getElem?_packBytes _ _ hn, getElem?_packBytes _ _ hn', List.drop_take, List.take_take,
    Nat.min_eq_left (by omega)]

/-- The bytes read from `MSG` depend on those addresses alone. -/
theorem State.msgBytes_congr {s s' : State} {n : Nat} (h : ∀ a < n, s.msgByte a = s'.msgByte a) :
    s.msgBytes 0 n = s'.msgBytes 0 n := by
  refine List.map_congr_left fun m hm => ?_
  rw [Nat.zero_add]
  exact h m (List.mem_range.1 hm)

/-- Digests of the same message bytes agree on the bytes both have (45_shake128.md R185, R186). -/
theorem State.getElem?_digest_congr {s s' : State} {mlen d e k : Nat}
    (h : ∀ a < mlen, s.msgByte a = s'.msgByte a) (hde : d ≤ e) (hk : k < d) :
    (s.digest mlen d)[k]? = (s'.digest mlen e)[k]? := by
  rw [State.digest, State.digest, State.msgBytes_congr h, ← take_shake128 _ (Nat.mul_le_mul_left 8 hde)]
  exact getElem?_packBytes_take _ hk (hk.trans_le hde) hk

/-- SHAKE128 completes once its checks pass (45_shake128.md R181, 60_exceptions.md R206). -/
theorem exec_shake128_of_checks {s : State} (hw : s.width.toNat = 1600) (hm : s.mlen.toNat ≤ s.msgCap)
    (hd : s.dlen.toNat ≤ s.outCap) : exec .shake128 s = .next s.shakeDone := by
  have hr := State.outOfRange_eq_false.2 ⟨hm, hd⟩
  have hl : s.widthLegal = true := s.widthLegal_iff.2 ⟨6, le_rfl, hw⟩
  rcases execShake128_cases s with ⟨h, -⟩ | ⟨-, h, -⟩ | ⟨-, h, -⟩ | ⟨-, -, h⟩
  · simp [hl] at h
  · exact absurd hw h
  · simp [hr] at h
  · exact h

/-- Settles O28: the digest is a function of the message bytes, and its bytes do not move with `DLEN`. -/
theorem shakeOutputDependsOnTheMessageAlone : Obligations.ShakeOutputDependsOnTheMessageAlone := by
  intro s s' hw hw' hmlen hdlen hm hm' hd hd' hmsg
  refine ⟨_, _, exec_shake128_of_checks hw hm hd, exec_shake128_of_checks hw' hm' hd', fun k hk => ?_⟩
  apply Option.some.inj
  rw [State.outByte_shakeDone_low hk, State.outByte_shakeDone_low (hk.trans_le hdlen), ← hmlen]
  exact State.getElem?_digest_congr hmsg hdlen hk

end Sys2Proof.Machine

/-! ## `STATUS` and the host's accesses (10_state.md R25 to R35) -/

namespace Sys2Proof.Machine

/-! ### The fields of `STATUS` (10_state.md R29) -/

/-- Every bit of `STATUS`: `BUSY`, `FATAL`, and `CAUSE` from bit 8 on. -/
theorem State.getLsbD_statusWord (s : State) {i : Nat} (hi : i < 32) : s.statusWord.getLsbD i =
    ((decide (i = 0) && s.busy) || (decide (i = 1) && s.fatal) ||
      (!decide (i < 8) && s.causeCode.getLsbD (i - 8))) := by
  simp only [State.statusWord, BitVec.getLsbD_or, BitVec.getLsbD_shiftLeft, BitVec.getLsbD_setWidth,
    BitVec.getLsbD_ofBool, hi, decide_true, Bool.true_and]
  obtain rfl | rfl | h2 : i = 0 ∨ i = 1 ∨ 2 ≤ i := by omega
  · simp
  · simp
  · have h1 : i - 1 ≠ 0 := by omega
    have h8 : i - 8 < 32 := by omega
    have h0 : i ≠ 0 ∧ i ≠ 1 := by omega
    simp [h0, h1, h8]

/-- Bits 7:2 of `STATUS` are reserved. -/
theorem State.statusWord_reserved_low (s : State) {i : Nat} (h2 : 2 ≤ i) (h8 : i < 8) :
    s.statusWord.getLsbD i = false := by
  rw [State.getLsbD_statusWord s (by omega), decide_eq_false (p := i = 0) (by omega),
    decide_eq_false (p := i = 1) (by omega), decide_eq_true h8]
  rfl

/-- Bits 31:16 of `STATUS` are reserved. -/
theorem State.statusWord_reserved_high (s : State) {i : Nat} (h : 16 ≤ i) : s.statusWord.getLsbD i = false := by
  by_cases hi : i < 32
  · rw [State.getLsbD_statusWord s hi, decide_eq_false (p := i = 0) (by omega),
      decide_eq_false (p := i = 1) (by omega), BitVec.getLsbD_of_ge s.causeCode _ (by omega), Bool.and_false]
    rfl
  · exact BitVec.getLsbD_of_ge _ _ (by omega)

/-- Bits 15:8 of `STATUS` are `CAUSE`. -/
theorem State.statusWord_cause (s : State) : s.statusWord.extractLsb' 8 8 = s.causeCode := by
  refine BitVec.eq_of_getLsbD_eq fun j hj => ?_
  rw [BitVec.getLsbD_extractLsb', State.getLsbD_statusWord s (by omega),
    decide_eq_false (p := 8 + j = 1) (by omega)]
  simp [hj]

/-- Using up an access leaves `STATUS` as it is. -/
theorem State.statusWord_landed (s : State) (rest : List HostAccess) :
    State.statusWord { s with host := rest, seq := s.seq.landed } = s.statusWord := by
  simp only [State.statusWord, State.busy_landed]
  rfl

theorem State.causeCode_of_not_fatal {s : State} (h : s.fatal = false) : s.causeCode = 0 := by
  rw [State.causeCode, State.fatal_eq_false.1 h]

/-- While `FATAL = 1` the cause is one of the four (60_exceptions.md R201). -/
theorem State.causeCode_of_fatal {s : State} (h : s.fatal = true) : s.causeCode.toNat ∈ [1, 2, 3, 4] := by
  obtain ⟨c, hc⟩ := Option.isSome_iff_exists.1 h
  rw [State.causeCode, hc]
  cases c <;> decide

/-- `STATUS` is 0 while nothing runs and no fault is held. -/
theorem State.statusWord_eq_zero {s : State} (hb : s.busy = false) (hf : s.fatal = false) : s.statusWord = 0 := by
  simp [State.statusWord, hb, hf, State.causeCode_of_not_fatal hf]

/-! ### Register reads and writes by offset (20_memory.md R51) -/

/-- A register read while idle returns the register's value and changes nothing else (20_memory.md R51, R57). -/
theorem step_regRead_of_idle {s : State} {off : Nat} {rest : List HostAccess} (hs : s.seq = .idle)
    (hh : s.host = .regRead off :: rest) (h : off ≤ 0x1F) (h4 : off % 4 = 0) :
    step s = .next { s with host := rest, readData := (s.regValue off).toNat } := by
  rw [step_eq_access_of_idle hs hh, access_regRead h h4]
  rfl

/-- A write to `CMD` while idle and not faulted is accepted (10_state.md R28). -/
theorem State.regWrite_cmd_accepted {s : State} (v : Word) (hb : s.busy = false) (hf : s.fatal = false) :
    s.regWrite 0x00 v = { s with seq := .running v (Config.busyTurns s.draws), draws := s.draws + 1 } := by
  simp [State.regWrite, State.issue, hb, hf]

/-- Any other write to `CMD` is ignored (10_state.md R28, 60_exceptions.md R208). -/
theorem State.regWrite_cmd_ignored {s : State} (v : Word) (h : s.busy = true ∨ s.fatal = true) :
    s.regWrite 0x00 v = s := by
  rcases h with hb | hf
  · exact State.regWrite_busy _ _ hb
  · simp [State.regWrite, State.issue, hf]

/-- `STATUS` ignores writes (10_state.md R29). -/
theorem State.regWrite_status (s : State) (v : Word) : s.regWrite 0x04 v = s :=
  ite_self s

/-- The three control registers store any value while idle (10_state.md R25 to R27). -/
theorem State.regWrite_control {s : State} {off : Nat} (v : Word) (hb : s.busy = false)
    (hoff : off ∈ [0x08, 0x0C, 0x10]) : s.regWrite off v = { s with
      width := if off = 0x08 then v else s.width
      mlen := if off = 0x0C then v else s.mlen
      dlen := if off = 0x10 then v else s.dlen } := by
  simp only [List.mem_cons, List.not_mem_nil, or_false] at hoff
  rcases hoff with rfl | rfl | rfl <;> simp [State.regWrite, hb]

/-- A control register written while idle reads back (10_state.md R25 to R27). -/
theorem State.regValue_regWrite_control {s : State} {off : Nat} (v : Word) (hb : s.busy = false)
    (hoff : off ∈ [0x08, 0x0C, 0x10]) : (s.regWrite off v).regValue off = v := by
  rw [State.regWrite_control v hb hoff]
  simp only [List.mem_cons, List.not_mem_nil, or_false] at hoff
  rcases hoff with rfl | rfl | rfl <;> rfl

/-- Offsets of the control registers are whole aligned words of `REG`. -/
theorem control_offset_aligned {off : Nat} (h : off ∈ [0x08, 0x0C, 0x10]) : off ≤ 0x1F ∧ off % 4 = 0 := by
  simp only [List.mem_cons, List.not_mem_nil, or_false] at h
  omega

/-! ### Decoded commands are well formed -/

/-- A format N word holds its row's command (30_encoding.md R80). -/
theorem wf_of_formatN {i j : Instr} {imm : Nat} (hj : j.wf = true) (h : formatN j imm = .ok i) : i.wf = true := by
  rw [formatN] at h
  split at h
  · rwa [← Except.ok.inj h]
  · cases h

/-- A command decoded from eight bits of `IMM` is in its operand range (30_encoding.md R80, R82). -/
theorem wf_of_decodeFields {i : Instr} {op imm : Nat} (himm : imm < 256) (h : decodeFields op imm = .ok i) :
    i.wf = true := by
  obtain ⟨hlo, hhi, -⟩ := sext8_range himm
  have hindex : wfIndex (sext8 imm) = true := by simp [wfIndex, hlo, hhi]
  have hcount : wfCount (zext8 imm) = true := decide_eq_true (Nat.le_of_lt_succ himm)
  unfold decodeFields at h
  split at h
  case h_5 | h_6 | h_7 => rwa [← Except.ok.inj h]
  case h_9 => cases h
  all_goals exact wf_of_formatN rfl h

/-- A word that decodes holds a well-formed command (30_encoding.md R84). -/
theorem wf_of_decode {w : Word} {i : Instr} (h : decode w = .ok i) : i.wf = true := by
  rw [decode] at h
  split at h
  · exact wf_of_decodeFields (immOf_lt w) h
  · cases h

/-! ### The obligations about `STATUS`, the registers, the window and reset -/

/-- Settles O36: the fields bit by bit, the read of the word, and the ignored write. -/
theorem statusWordHasItsFields : Obligations.StatusWordHasItsFields := by
  refine ⟨fun s => ⟨?_, ?_, fun i => s.statusWord_reserved_low, s.statusWord_cause,
    fun i => s.statusWord_reserved_high, State.causeCode_of_not_fatal, State.causeCode_of_fatal,
    fun hinv ⟨hb, hf⟩ => ?_⟩, fun s rest hm hh => ?_, fun s v rest hm hh => ?_⟩
  · simpa using State.getLsbD_statusWord s (i := 0) (by decide)
  · simpa using State.getLsbD_statusWord s (i := 1) (by decide)
  · simp [hinv.busy_not_fatal hb] at hf
  · rw [step_eq_access hm hh, access_regRead (by decide) (by decide)]
    exact ⟨_, rfl, congrArg BitVec.toNat (s.statusWord_landed rest)⟩
  · rw [step_eq_access hm hh, access_regWrite (by decide) (by decide), State.regWrite_status]

/-- Settles O50: `ST[k]` is one byte of the window, read and written inside its space. -/
theorem windowByteIsEightStateBits : Obligations.WindowByteIsEightStateBits := by
  intro s rest k hs hk
  have hb : State.busy { s with host := rest } = false := State.busy_eq_false.2 hs
  refine ⟨fun hh => ?_, fun v hh => ?_⟩
  · rw [step_eq_access_of_idle hs hh, access_read_byte_of_idle hb hk]
    exact ⟨_, rfl, rfl, (stByte s.S k).isLt, fun j hj => getLsbD_stByte s.S k hj⟩
  · rw [step_eq_access_of_idle hs hh, access_write_byte_of_idle v hb hk]
    exact ⟨_, rfl, rfl, fun i hi => getLsbD_setStByte s.S k v hi⟩

/-- Settles O39: the reset event sets the registers from whatever state the host resets. -/
theorem resetLeavesTheResetValues : Obligations.ResetLeavesTheResetValues := by
  refine ⟨⟨rfl, rfl, rfl, rfl, rfl, rfl, rfl⟩, fun s rest hm hh => ?_, fun s => step_of_idle_of_no_host⟩
  rw [step_eq_access hm hh]
  exact ⟨_, rfl, rfl, rfl, rfl, rfl, rfl, rfl, rfl, State.statusWord_eq_zero rfl rfl, rfl⟩

/-- Settles O44: the engine's turn runs the word, and a decoded word is a well-formed command. -/
theorem stepRunsTheAcceptedCommand : Obligations.StepRunsTheAcceptedCommand := by
  intro s v n i hs he hd
  refine ⟨?_, wf_of_decode hd⟩
  rw [step_eq_runWord hs he, runWord, hd]

/-- Settles O47: a write to `CMD` is accepted or ignored, and `CMD` reads 0. -/
theorem cmdWriteIssuesTheWord : Obligations.CmdWriteIssuesTheWord := by
  refine ⟨fun s v rest hm hh => ?_, fun s rest hm hh => ?_⟩
  · rw [step_eq_access hm hh, access_regWrite (by decide) (by decide)]
    refine ⟨fun hb hf => ⟨Config.busyTurns s.draws, ?_⟩, fun h => ?_⟩
    · exact congrArg Host.Outcome.next
        (State.regWrite_cmd_accepted v ((State.busy_landed s rest).trans hb) hf)
    · exact congrArg Host.Outcome.next (State.regWrite_cmd_ignored v (by rwa [State.busy_landed]))
  · rw [step_eq_access hm hh, access_regRead (by decide) (by decide)]
    rfl

/-- Settles O48: the write stores the value and the read of the same offset returns it. -/
theorem controlRegistersReadBack : Obligations.ControlRegistersReadBack := by
  intro s v rest off hs hoff hh
  obtain ⟨hle, h4⟩ := control_offset_aligned hoff
  have hb : State.busy { s with host := .regRead off :: rest } = false := State.busy_eq_false.2 hs
  obtain ⟨t, ht⟩ : ∃ t, t = State.regWrite { s with host := .regRead off :: rest } off v := ⟨_, rfl⟩
  have heq := ht.trans (State.regWrite_control v hb hoff)
  have hread : t.regValue off = v := ht ▸ State.regValue_regWrite_control v hb hoff
  refine ⟨t, ?_, heq, ?_⟩
  · rw [step_eq_access_of_idle hs hh, access_regWrite hle h4, ht]
  · rw [step_regRead_of_idle (heq ▸ hs) (by rw [heq]) hle h4, hread]

end Sys2Proof.Machine

/-! ## The host's accesses to `REG` and to bytes (20_memory.md R50 to R59) -/

namespace Sys2Proof.Machine

/-! ### A host whose accesses all have a meaning -/

/-- The sizes of the spaces are parameters of the engine (10_state.md R37). -/
theorem State.spaceSize_congr {s t : State} (hp : t.params = s.params) (sp : Space) :
    t.spaceSize sp = s.spaceSize sp := by
  cases sp <;> simp [State.spaceSize, State.msgCap, State.outCap, hp]

/-- Whether an access has a meaning depends on the parameters alone. -/
theorem HostAccess.legal_congr {s t : State} (hp : t.params = s.params) (h : HostAccess) :
    HostAccess.legal t h = HostAccess.legal s h := by
  cases h <;> simp only [HostAccess.legal, State.spaceSize_congr hp]

/-- A register access has a meaning when it is a whole aligned word of `REG` (20_memory.md R51, R55). -/
theorem HostAccess.legal_regRead {s : State} {off : Nat} :
    HostAccess.legal s (.regRead off) = true ↔ off ≤ 0x1F ∧ off % 4 = 0 := by
  simp [HostAccess.legal]

theorem HostAccess.legal_regWrite {s : State} {off : Nat} {v : Word} :
    HostAccess.legal s (.regWrite off v) = true ↔ off ≤ 0x1F ∧ off % 4 = 0 := by
  simp [HostAccess.legal]

/-- A byte access has a meaning when it lies inside its space (20_memory.md R50, R55). -/
theorem HostAccess.legal_read {s : State} {sp : Space} {a n : Nat} :
    HostAccess.legal s (.read sp a n) = true ↔ a + n ≤ s.spaceSize sp := by
  simp [HostAccess.legal]

theorem HostAccess.legal_write {s : State} {sp : Space} {a n v : Nat} :
    HostAccess.legal s (.write sp a n v) = true ↔ a + n ≤ s.spaceSize sp := by
  simp [HostAccess.legal]

theorem State.hostLegal_iff {s : State} : s.hostLegal = true ↔ ∀ h ∈ s.host, HostAccess.legal s h = true :=
  List.all_eq_true

/-- A host that has fewer accesses left to make is still legal. -/
theorem State.hostLegal_of_subset {s t : State} (hl : s.hostLegal = true) (hh : t.host ⊆ s.host)
    (hp : t.params = s.params) : t.hostLegal = true :=
  State.hostLegal_iff.2 fun h hm => (HostAccess.legal_congr hp h).trans (State.hostLegal_iff.1 hl h (hh hm))

/-- A command completes, and leaves the host and the parameters alone (70_reset_and_hazards.md R242). -/
theorem exec_keeps_host (i : Instr) (s : State) :
    ∃ t, exec i s = .next t ∧ t.host = s.host ∧ t.params = s.params := by
  rcases exec_cases i s with ⟨c, he⟩ | ⟨-, -, S', he⟩ | ⟨-, -, -, he⟩ <;> exact ⟨_, he, rfl, rfl⟩

/-- So does an accepted word, reserved or not. -/
theorem runWord_keeps_host (w : Word) (s : State) :
    ∃ t, runWord w s = .next t ∧ t.host = s.host ∧ t.params = s.params := by
  rcases runWord_cases w s with ⟨i, -, hr⟩ | ⟨e, -, hr⟩
  · exact hr ▸ exec_keeps_host i s
  · exact ⟨_, hr, rfl, rfl⟩

/-- A host access leaves the accesses still to be made and the parameters alone. -/
theorem access_keeps_host {h : HostAccess} {s t : State} (he : access h s = .next t) :
    t.host = s.host ∧ t.params = s.params := by
  rcases access_cases he with ⟨-, d, n, -, rfl⟩ | ⟨off, v, -, rfl⟩ | ⟨sp, a, n, v, -, -, rfl⟩ | ⟨-, rfl⟩
  · exact ⟨rfl, rfl⟩
  · rcases s.regWrite_cases off v with ⟨a, b, c, hw⟩ | ⟨-, -, -, hw⟩ <;> rw [hw] <;> exact ⟨rfl, rfl⟩
  · obtain ⟨S', m, o, hw, -⟩ := State.writeBytes_frame sp n a v s
    rw [hw]; exact ⟨rfl, rfl⟩
  · exact ⟨rfl, rfl⟩

/-- Settles O42: a command always completes, and the host's next access is one that has a meaning. -/
theorem legalHostNeverStopsTheMachine : Obligations.LegalHostNeverStopsTheMachine := by
  intro s hl
  rcases step_cases s with ⟨w, n, -, -, -, hs⟩ | ⟨-, h, rest, hh, hs⟩ | ⟨-, -, hs⟩
  · obtain ⟨t, ht, hhost, hp⟩ := runWord_keeps_host w s
    exact ⟨t, hs.trans ht, State.hostLegal_of_subset hl (fun _ hm => hhost ▸ hm) hp, hp⟩
  · have hlegal : HostAccess.legal s h = true := State.hostLegal_iff.1 hl h (by simp [hh])
    obtain ⟨t, ht⟩ := access_legal (s := { s with host := rest, seq := s.seq.landed })
      ((HostAccess.legal_congr (s := s) rfl h).trans hlegal)
    obtain ⟨hhost, hp⟩ := access_keeps_host ht
    have hsub : t.host ⊆ s.host := by simp [hhost, hh]
    exact ⟨t, hs.trans ht, State.hostLegal_of_subset hl hsub hp, hp⟩
  · exact ⟨s, hs, hl, rfl⟩

/-! ### Bytes written and read while idle (20_memory.md R55, R57) -/

theorem State.writeByte_of_idle {s : State} (sp : Space) (a : Nat) (v : Byte) (hb : s.busy = false) :
    s.writeByte sp a v = s.setByte sp a v := by
  simp [State.writeByte, hb]

/-- A write leaves every byte outside its range, and every other space, as it was. -/
theorem State.byteAt_writeBytes_outside {s : State} {sp sp' : Space} {n a v x : Nat} (hb : s.busy = false)
    (hx : x < s.spaceSize sp') (h : sp' = sp → x < a ∨ a + n ≤ x) :
    (State.writeBytes sp n a v s).byteAt sp' x = s.byteAt sp' x := by
  induction n generalizing a v s with
  | zero => rfl
  | succ n ih =>
    have hne : sp' ≠ sp ∨ x ≠ a := by
      by_cases hsp : sp' = sp
      · exact .inr (by have := h hsp; omega)
      · exact .inl hsp
    rw [State.writeBytes, State.writeByte_of_idle sp a _ hb,
      ih (by simpa using hb) (by simpa using hx) (fun hsp => by have := h hsp; omega),
      State.byteAt_setByte_other s _ hx hne]

/-- Byte `a + m` after a write is digit `m` of the bus word in base 256: the lowest address takes the least
significant byte (20_memory.md R55). -/
theorem State.byteAt_writeBytes_inside {s : State} {sp : Space} {n a v m : Nat} (hb : s.busy = false)
    (hr : a + n ≤ s.spaceSize sp) (hm : m < n) :
    ((State.writeBytes sp n a v s).byteAt sp (a + m)).toNat = v / 256 ^ m % 256 := by
  induction n generalizing a v s m with
  | zero => omega
  | succ n ih =>
    have hb' : (s.setByte sp a (BitVec.ofNat 8 v)).busy = false := by simpa using hb
    rw [State.writeBytes, State.writeByte_of_idle sp a _ hb]
    cases m with
    | zero =>
      rw [State.byteAt_writeBytes_outside hb' (by simp; omega) (fun _ => by omega), Nat.add_zero,
        State.byteAt_setByte_self s _ (by omega)]
      simp
    | succ m =>
      rw [show a + (m + 1) = a + 1 + m by omega, ih hb' (by simp; omega) (by omega), Nat.div_div_eq_div_mul,
        pow_succ']

/-- A write inside its space is its byte writes. -/
theorem access_write {s : State} {sp : Space} {a n : Nat} (v : Nat) (hr : a + n ≤ s.spaceSize sp) :
    access (.write sp a n v) s = .next (State.writeBytes sp n a v s) := by
  rw [access, State.spaceStop_eq_none hr, Option.getD_none]

/-- Settles O51: the bytes written, the bytes left, and the frame of a byte write. -/
theorem writeIsItsByteWrites : Obligations.WriteIsItsByteWrites := by
  intro s rest sp a n v hs hr hh
  have hb : State.busy { s with host := rest } = false := State.busy_eq_false.2 hs
  obtain ⟨S', m, o, he, -⟩ := State.writeBytes_frame sp n a v { s with host := rest }
  refine ⟨_, (step_eq_access_of_idle hs hh).trans (access_write v hr), ?_,
    fun m hm => State.byteAt_writeBytes_inside hb hr hm,
    fun sp' x hx h => State.byteAt_writeBytes_outside hb hx h⟩
  rw [he]

/-- The bus word the `n` bytes at `a` make: byte `a + m` has weight `256^m` (20_memory.md R55). -/
def State.busWord (s : State) (sp : Space) (a n : Nat) : Nat :=
  ((List.range n).map fun m => (s.byteAt sp (a + m)).toNat * 256 ^ m).sum

/-- The byte at the lowest address is the least significant of the bus word. -/
theorem State.busWord_succ (s : State) (sp : Space) (a n : Nat) :
    s.busWord sp a (n + 1) = (s.byteAt sp a).toNat + 256 * s.busWord sp (a + 1) n := by
  have hweight : ∀ m, (s.byteAt sp (a + (m + 1))).toNat * 256 ^ (m + 1) =
      256 * ((s.byteAt sp (a + 1 + m)).toNat * 256 ^ m) := fun m => by
    rw [Nat.add_right_comm a 1 m, Nat.add_assoc, pow_succ]; ring
  simp [State.busWord, List.range_succ_eq_map, Function.comp_def, hweight, List.sum_map_mul_left]

theorem State.readBytes_idle_value {s : State} (sp : Space) (n a : Nat) (hb : s.busy = false) :
    (State.readBytes sp n a s).1 = s.busWord sp a n := by
  induction n generalizing a with
  | zero => rfl
  | succ n ih => simp [State.readBytes, State.readByte, hb, ih, State.busWord_succ]

/-- While idle a read inside its space returns its bytes and changes nothing else (20_memory.md R57). -/
theorem access_read_of_idle {s : State} {sp : Space} {a n : Nat} (hb : s.busy = false)
    (hr : a + n ≤ s.spaceSize sp) :
    access (.read sp a n) s = .next { s with readData := s.busWord sp a n } := by
  simp only [access, State.spaceStop_eq_none hr, Option.getD_none, State.readBytes_idle sp n a hb,
    State.readBytes_idle_value sp n a hb]

/-- While idle a read that has a meaning returns one value, whatever the host has left to do and whatever it read
before, and changes nothing else (20_memory.md R57). -/
theorem access_read_kind_of_idle {s : State} {h : HostAccess} (hb : s.busy = false)
    (hl : HostAccess.legal s h = true)
    (hread : h = .poll ∨ (∃ off, h = .regRead off) ∨ ∃ sp a n, h = .read sp a n) :
    ∃ d, ∀ host r, access h { s with host := host, readData := r } = .next { s with host := host, readData := d } := by
  rcases hread with rfl | ⟨off, rfl⟩ | ⟨sp, a, n, rfl⟩
  · exact ⟨s.statusWord.toNat, fun _ _ => rfl⟩
  · obtain ⟨h1, h4⟩ := HostAccess.legal_regRead.1 hl
    exact ⟨(s.regValue off).toNat, fun _ _ => access_regRead h1 h4 _⟩
  · exact ⟨s.busWord sp a n, fun _ _ => access_read_of_idle hb (HostAccess.legal_read.1 hl)⟩

/-- Settles O52: the value of a read of bytes, and that a second read finds the state of the first. -/
theorem readsReturnTheBytesAndChangeNothing : Obligations.ReadsReturnTheBytesAndChangeNothing := by
  refine ⟨fun s rest sp a n hs hr hh => ?_, fun s rest h hs hl hread hh => ?_⟩
  · exact (step_eq_access_of_idle hs hh).trans (access_read_of_idle (State.busy_eq_false.2 hs) hr)
  · obtain ⟨d, hd⟩ := access_read_kind_of_idle (State.busy_eq_false.2 hs) hl hread
    have hfirst := (step_eq_access_of_idle hs hh).trans (hd (h :: rest) s.readData)
    have hsecond := (step_eq_access_of_idle (s := { s with host := h :: rest, readData := d }) hs rfl).trans (hd rest d)
    exact ⟨_, _, hfirst, rfl, hsecond, rfl⟩

/-! ### Accesses while a command runs (20_memory.md R59) -/

/-- While `BUSY = 1` an access but reset changes nothing but the value read and the draws. -/
theorem access_frame_of_busy {s t : State} {h : HostAccess} (hb : s.busy = true) (hne : h ≠ .reset)
    (he : access h s = .next t) : t = { s with draws := t.draws, readData := t.readData } := by
  rcases access_cases he with ⟨-, d, n, -, rfl⟩ | ⟨off, v, -, rfl⟩ | ⟨sp, a, n, v, -, -, rfl⟩ | ⟨hreset, -⟩
  · rfl
  · rw [State.regWrite_busy off v hb]
  · rw [State.writeBytes_busy sp n a v hb]
  · exact absurd hreset hne

/-- While `BUSY = 1` a write is ignored: it changes nothing at all. -/
theorem access_write_kind_of_busy {s : State} {h : HostAccess} (hb : s.busy = true)
    (hl : HostAccess.legal s h = true) (hw : (∃ off v, h = .regWrite off v) ∨ ∃ sp a n v, h = .write sp a n v) :
    access h s = .next s := by
  rcases hw with ⟨off, v, rfl⟩ | ⟨sp, a, n, v, rfl⟩
  · obtain ⟨h1, h4⟩ := HostAccess.legal_regWrite.1 hl
    rw [access_regWrite h1 h4, State.regWrite_busy off v hb]
  · rw [access_write v (HostAccess.legal_write.1 hl), State.writeBytes_busy sp n a v hb]

/-- A register read returns the register's value, also while `BUSY = 1` (20_memory.md R51, R59). -/
theorem readData_of_access_regRead {s t : State} {off : Nat} (hl : HostAccess.legal s (.regRead off) = true)
    (he : access (.regRead off) s = .next t) : t.readData = (s.regValue off).toNat := by
  obtain ⟨h1, h4⟩ := HostAccess.legal_regRead.1 hl
  rw [← Host.Outcome.next.inj ((access_regRead h1 h4 s).symm.trans he)]

/-- `STATUS` is 1 while a command runs and no fault is held (10_state.md R29). -/
theorem State.statusWord_eq_one {s : State} (hb : s.busy = true) (hf : s.fatal = false) : s.statusWord = 1 := by
  simp [State.statusWord, hb, hf, State.causeCode_of_not_fatal hf]

/-- Settles O53: the frame of an access that lands, the ignored writes, and the registers' values. -/
theorem accessesWhileBusyChangeNothing : Obligations.AccessesWhileBusyChangeNothing := by
  intro s v n h rest hs hm hh hl hne
  have hb : State.busy { s with host := rest, seq := s.seq.landed } = true := by
    rw [State.busy_landed, State.busy_of_running hs]
  replace hl : HostAccess.legal { s with host := rest, seq := s.seq.landed } h = true :=
    (HostAccess.legal_congr (s := s) rfl h).trans hl
  obtain ⟨t, ht⟩ := access_legal hl
  have hread : ∀ off, h = .regRead off →
      t.readData = (State.regValue { s with host := rest, seq := s.seq.landed } off).toNat := fun off he =>
    readData_of_access_regRead (he ▸ hl) (he ▸ ht)
  have hwrite : ((∃ off v, h = .regWrite off v) ∨ ∃ sp a n v, h = .write sp a n v) →
      t.draws = s.draws ∧ t.readData = s.readData := fun hw => by
    rw [← Host.Outcome.next.inj ((access_write_kind_of_busy hb hl hw).symm.trans ht)]
    exact ⟨rfl, rfl⟩
  refine ⟨t, (step_eq_access hm hh).trans ht, ?_, fun off x he => hwrite (.inl ⟨off, x, he⟩),
    fun sp a k x he => hwrite (.inr ⟨sp, a, k, x, he⟩), hread 0x08, hread 0x0C, hread 0x10, fun he hinv => ?_⟩
  · simpa only [hs, Sequencer.landed] using access_frame_of_busy hb hne ht
  · have hbusy := State.busy_of_running hs
    rw [hread 0x04 he, State.regValue, State.statusWord_landed,
      State.statusWord_eq_one hbusy (hinv.busy_not_fatal hbusy)]
    rfl

/-! ### The host's turn, the reserved offsets and the accesses without a meaning (20_memory.md R51, R55, R58) -/

/-- Settles O46: the step is the host's next access. -/
theorem stepMakesTheNextHostAccess : Obligations.StepMakesTheNextHostAccess :=
  fun _ _ _ hm hh => step_eq_access hm hh

/-- Offsets 0x14, 0x18 and 0x1C are whole aligned words of `REG`. -/
theorem reserved_offset_aligned {off : Nat} (h : off ∈ [0x14, 0x18, 0x1C]) : off ≤ 0x1F ∧ off % 4 = 0 := by
  simp only [List.mem_cons, List.not_mem_nil, or_false] at h
  omega

/-- A reserved offset reads 0 (20_memory.md R51). -/
theorem State.regValue_reserved {off : Nat} (s : State) (h : off ∈ [0x14, 0x18, 0x1C]) : s.regValue off = 0 := by
  simp only [List.mem_cons, List.not_mem_nil, or_false] at h
  rcases h with rfl | rfl | rfl <;> rfl

/-- A reserved offset ignores writes, busy or idle (20_memory.md R51). -/
theorem State.regWrite_reserved {off : Nat} (s : State) (v : Word) (h : off ∈ [0x14, 0x18, 0x1C]) :
    s.regWrite off v = s := by
  simp only [List.mem_cons, List.not_mem_nil, or_false] at h
  rcases h with rfl | rfl | rfl <;> exact ite_self s

/-- Settles O49: the value read at a reserved offset and the write ignored there. -/
theorem reservedOffsetsReadZeroAndIgnoreWrites : Obligations.ReservedOffsetsReadZeroAndIgnoreWrites := by
  intro s rest off hm hoff
  obtain ⟨h1, h4⟩ := reserved_offset_aligned hoff
  refine ⟨fun hh => ?_, fun v hh => ?_⟩
  · rw [step_eq_access hm hh, access_regRead h1 h4, State.regValue_reserved _ hoff]
    rfl
  · rw [step_eq_access hm hh, access_regWrite h1 h4, State.regWrite_reserved _ v hoff]

/-- An access above the last offset of `REG` stops (20_memory.md R51, U4). -/
theorem regStop_outside {off : Nat} (n : Nat) (h : 0x1F < off) : regStop off n = some (.fault (.outsideReg off)) :=
  if_pos h

/-- An access to `REG` that is not a whole aligned word is refused (20_memory.md R55, U4). -/
theorem regStop_not_whole {off n : Nat} (h : off ≤ 0x1F) (hw : n ≠ 4 ∨ off % 4 ≠ 0) :
    regStop off n = some (.refused (.regNotWholeWord off n)) := by
  rw [regStop, if_neg (by omega), if_pos hw]

/-- A partial access to an offset of `REG` is refused, aligned or not (20_memory.md R55, U4). -/
theorem access_regPart {off : Nat} (n : Nat) (h : off ≤ 0x1F) (s : State) :
    access (.regPart off n) s = .refused (.regNotWholeWord off n) := by
  rw [access, regStop, if_neg (by omega)]
  split <;> rfl

/-- A byte access that reaches outside its space stops at its first outside byte (20_memory.md R51, U4). -/
theorem State.spaceStop_outside {s : State} {sp : Space} {a n : Nat} (h : s.spaceSize sp < a + (n + 1)) :
    s.spaceStop sp a (n + 1) = some (.fault (.outsideSpace sp (max a (s.spaceSize sp)))) :=
  if_pos ⟨Nat.succ_ne_zero n, h⟩

/-- Settles O54: each access without a meaning by the check that stops it. -/
theorem accessesOutsideTheEngineStop : Obligations.AccessesOutsideTheEngineStop := by
  intro s h rest hm hh
  rw [step_eq_access hm hh]
  have hspace (sp : Space) : State.spaceSize { s with host := rest, seq := s.seq.landed } sp = s.spaceSize sp :=
    State.spaceSize_congr rfl sp
  refine ⟨?_, ?_, ?_, ?_, ?_, ?_, ?_⟩
  · rintro off rfl h1; rw [access, regStop_outside 4 h1, Option.getD_some]
  · rintro off x rfl h1; rw [access, regStop_outside 4 h1, Option.getD_some]
  · rintro off rfl h1 h4; rw [access, regStop_not_whole h1 (.inr h4), Option.getD_some]
  · rintro off x rfl h1 h4; rw [access, regStop_not_whole h1 (.inr h4), Option.getD_some]
  · rintro off n rfl h1; exact access_regPart n h1 _
  · rintro sp a n rfl hr
    rw [← hspace] at hr ⊢
    simp only [access, State.spaceStop_outside hr, Option.getD_some]
  · rintro sp a n x rfl hr
    rw [← hspace] at hr ⊢
    simp only [access, State.spaceStop_outside hr, Option.getD_some]

end Sys2Proof.Machine

/-! ## The decoder and the encoder (30_encoding.md R80 to R86) -/

namespace Sys2Proof.Machine

/-! ### A word and its fields (30_encoding.md R80) -/

/-- Two words with the same three fields are one word. -/
theorem word_eq_of_fields {v w : Word} (hz : zeroOf v = zeroOf w) (hi : immOf v = immOf w)
    (ho : opOf v = opOf w) : v = w :=
  BitVec.eq_of_toNat_eq (by rw [toNat_eq_fields v, toNat_eq_fields w, hz, hi, ho])

/-- The fields of an encoding, for every command. -/
theorem encode_fields (i : Instr) : Laws.EncodeFields.Statement i :=
  Laws.encodeFields_of_opcode i (by cases i <;> simp [opcodeOf])

/-! ### The opcode map on fields (30_encoding.md R83) -/

theorem formatN_eq_ok_iff {i j : Instr} {imm : Nat} : formatN j imm = .ok i ↔ imm = 0 ∧ j = i := by
  unfold formatN
  split <;> simp [*]

/-- A word decodes by its fields, once `ZERO` is 0. -/
theorem decode_eq_ok_iff_fields {v : Word} {i : Instr} :
    decode v = .ok i ↔ zeroOf v = 0 ∧ decodeFields (opOf v) (immOf v) = .ok i := by
  unfold decode
  split <;> simp [*]

/-- The three kinds of opcode (30_encoding.md R83, R84): format N, formats I and U, and unassigned. -/
theorem decodeFields_cases (op imm : Nat) :
    (op ∈ [1, 2, 3, 4, 16] ∧ ∃ j, decodeFields op imm = formatN j imm) ∨
    (op ∈ [5, 6, 7] ∧ ∃ i, decodeFields op imm = .ok i) ∨
    (op ∉ [1, 2, 3, 4, 5, 6, 7, 16] ∧ decodeFields op imm = .error .opcode) := by
  unfold decodeFields
  split
  case h_5 | h_6 | h_7 => exact .inr (.inl ⟨by decide, _, rfl⟩)
  case h_9 _ h1 h2 h3 h4 h5 h6 h7 h16 =>
    have hop : op ∉ [1, 2, 3, 4, 5, 6, 7, 16] := by simpa using ⟨h1, h2, h3, h4, h5, h6, h7, h16⟩
    exact .inr (.inr ⟨hop, rfl⟩)
  all_goals exact .inl ⟨by decide, _, rfl⟩

/-- The assigned opcodes are those of format N and those of formats I and U. -/
theorem mem_opcodes_iff {op : Nat} : op ∈ [1, 2, 3, 4, 5, 6, 7, 16] ↔ op ∈ [1, 2, 3, 4, 16] ∨ op ∈ [5, 6, 7] := by
  simp only [List.mem_cons, List.not_mem_nil, or_false]
  omega

/-- No opcode of formats I and U is one of format N. -/
theorem not_mem_formatN_opcodes {op : Nat} (h : op ∈ [5, 6, 7]) : op ∉ [1, 2, 3, 4, 16] := by
  revert op
  decide

/-- The fields a well-formed command is encoded in decode to it. -/
theorem decodeFields_of_wf {i : Instr} (h : i.wf = true) :
    decodeFields (opcodeOf i) (operandOf i % 256).toNat = .ok i := by
  cases i with
  | theta | rho | pi | chi | shake128 => rfl
  | iota ir | round ir =>
    simp only [Instr.wf, wfIndex, Bool.and_eq_true, decide_eq_true_eq] at h
    simp [decodeFields, opcodeOf, operandOf, sext8_emod h.1 h.2]
  | keccakp nr =>
    simp only [Instr.wf, wfCount, decide_eq_true_eq] at h
    have hnr : ((nr : Int) % 256).toNat = nr := by omega
    simp [decodeFields, opcodeOf, operandOf, zext8, hnr]

/-- The fields a command was decoded from are those it is encoded in. -/
theorem fields_of_decodeFields {i : Instr} {op imm : Nat} (himm : imm < 256)
    (h : decodeFields op imm = .ok i) : opcodeOf i = op ∧ (operandOf i % 256).toNat = imm := by
  unfold decodeFields at h
  split at h
  case h_5 | h_6 =>
    obtain rfl := Except.ok.inj h
    exact ⟨rfl, (sext8_range himm).2.2⟩
  case h_7 =>
    obtain rfl := Except.ok.inj h
    exact ⟨rfl, by simp only [operandOf, zext8]; omega⟩
  case h_9 => cases h
  all_goals
    obtain ⟨rfl, rfl⟩ := formatN_eq_ok_iff.1 h
    exact ⟨rfl, rfl⟩

/-! ### The round trip (30_encoding.md R83, R86) -/

theorem decode_encode {i : Instr} (h : i.wf = true) : decode (encode i) = .ok i := by
  obtain ⟨hz, ho, hi⟩ := encode_fields i
  rw [decode_eq_ok_iff_fields, hz, ho, hi]
  exact ⟨rfl, decodeFields_of_wf h⟩

theorem encode_of_decode {v : Word} {i : Instr} (h : decode v = .ok i) : encode i = v := by
  obtain ⟨hz, hd⟩ := decode_eq_ok_iff_fields.1 h
  obtain ⟨ho, hi⟩ := fields_of_decodeFields (immOf_lt v) hd
  obtain ⟨hz', ho', hi'⟩ := encode_fields i
  exact word_eq_of_fields (hz'.trans hz.symm) (hi'.trans hi) (ho'.trans ho)

/-- Two well-formed commands with one word are one command, because the word decodes back. -/
theorem eq_of_encode_eq {i j : Instr} (hi : i.wf = true) (hj : j.wf = true) (h : encode i = encode j) : i = j :=
  Except.ok.inj (by rw [← decode_encode hi, h, decode_encode hj])

/-- Settles O1: the three fields of the encoding are read back one by one. -/
theorem decodeOfEncodeIsTheCommand : Obligations.DecodeOfEncodeIsTheCommand :=
  fun _ => decode_encode

/-- Settles O2: the word and the encoding of its command agree in all three fields. -/
theorem encodeOfDecodeIsTheWord : Obligations.EncodeOfDecodeIsTheWord :=
  fun _ _ h => ⟨wf_of_decode h, encode_of_decode h⟩

/-! ### The rows of the opcode map (30_encoding.md R83) -/

/-- The mask of formats I and U clears `IMM` and keeps the other two fields. -/
theorem fields_and_operandMask (v : Word) : zeroOf (v &&& 0xFFFF00FF) = zeroOf v ∧
    immOf (v &&& 0xFFFF00FF) = 0 ∧ opOf (v &&& 0xFFFF00FF) = opOf v := by
  have h8 (x : Nat) : x &&& 255 = x % 256 := Nat.and_two_pow_sub_one_eq_mod x 8
  have h16 (x : Nat) : x &&& 65535 = x % 65536 := Nat.and_two_pow_sub_one_eq_mod x 16
  simp [zeroOf, immOf, opOf, BitVec.extractLsb'_and, h8, h16]

/-- The fields of a row's `match`, and its two possible masks. -/
theorem fields_of_row {row : OpcodeRow} (hr : row ∈ opcodeRows) :
    zeroOf row.pattern = 0 ∧ immOf row.pattern = 0 ∧ (row.mask = 0xFFFFFFFF ∨ row.mask = 0xFFFF00FF) := by
  revert row
  decide

/-- A word matches a row iff `ZERO` is 0, `OP` is the row's and, where the mask covers it, `IMM` is 0. -/
theorem row_matches_iff {row : OpcodeRow} (hr : row ∈ opcodeRows) (v : Word) :
    v &&& row.mask = row.pattern ↔
      zeroOf v = 0 ∧ opOf v = opOf row.pattern ∧ (row.mask = 0xFFFFFFFF → immOf v = 0) := by
  obtain ⟨hz, hi, hm | hm⟩ := fields_of_row hr <;> rw [hm]
  · rw [show v &&& 0xFFFFFFFF = v from BitVec.and_allOnes]
    refine ⟨fun h => by simp [h, hz, hi], fun ⟨h1, h2, h3⟩ => ?_⟩
    exact word_eq_of_fields (h1.trans hz.symm) ((h3 rfl).trans hi.symm) h2
  · obtain ⟨hz', hi', ho'⟩ := fields_and_operandMask v
    refine ⟨fun h => ?_, fun ⟨h1, h2, _⟩ => ?_⟩
    · rw [h] at hz' ho'
      exact ⟨hz'.symm.trans hz, ho'.symm, fun hmask => absurd hmask (by decide)⟩
    · exact word_eq_of_fields (hz'.trans (h1.trans hz.symm)) (hi'.trans hi.symm) (ho'.trans h2)

/-- The decoder on a row's opcode: the row's command, `IMM` being 0 where the mask covers it. -/
theorem decodeFields_row {k imm : Nat} {row : OpcodeRow} (hr : opcodeRows[k]? = some row) (i : Instr) :
    decodeFields (opOf row.pattern) imm = .ok i ↔
      (row.mask = 0xFFFFFFFF → imm = 0) ∧ rowCommand k imm = some i := by
  obtain ⟨hk, rfl⟩ := List.getElem?_eq_some_iff.1 hr
  change k < 8 at hk
  interval_cases k <;> simp [opcodeRows, opOf, decodeFields, rowCommand, formatN_eq_ok_iff]

/-- Every opcode that decodes is the opcode of a row. -/
theorem exists_row_of_decodeFields {op imm : Nat} {i : Instr} (h : decodeFields op imm = .ok i) :
    ∃ (k : Nat) (row : OpcodeRow), opcodeRows[k]? = some row ∧ opOf row.pattern = op := by
  have hrows : ∀ op ∈ [1, 2, 3, 4, 5, 6, 7, 16], ∃ row ∈ opcodeRows, opOf row.pattern = op := by decide
  have hop : op ∈ [1, 2, 3, 4, 5, 6, 7, 16] := by
    rcases decodeFields_cases op imm with ⟨hm, -⟩ | ⟨hm, -⟩ | ⟨-, he⟩
    · exact mem_opcodes_iff.2 (.inl hm)
    · exact mem_opcodes_iff.2 (.inr hm)
    · simp [he] at h
  obtain ⟨row, hr, ho⟩ := hrows op hop
  obtain ⟨k, hk⟩ := List.mem_iff_getElem?.1 hr
  exact ⟨k, row, hk, ho⟩

/-- Settles O3: a row and the decoder ask the same of the three fields, and no opcode stands in two rows. -/
theorem wordIsCommandOfRowIffItMatches : Obligations.WordIsCommandOfRowIffItMatches := by
  refine ⟨rfl, fun v i => ?_, fun v k m r q hr hq hvr hvq => ?_⟩
  · rw [decode_eq_ok_iff_fields]
    constructor
    · rintro ⟨hz, hd⟩
      obtain ⟨k, row, hk, ho⟩ := exists_row_of_decodeFields hd
      obtain ⟨himm, hc⟩ := (decodeFields_row hk i).1 (ho ▸ hd)
      exact ⟨k, row, hk, (row_matches_iff (List.mem_of_getElem? hk) v).2 ⟨hz, ho.symm, himm⟩, hc⟩
    · rintro ⟨k, row, hk, hv, hc⟩
      obtain ⟨hz, ho, himm⟩ := (row_matches_iff (List.mem_of_getElem? hk) v).1 hv
      exact ⟨hz, ho ▸ (decodeFields_row hk i).2 ⟨himm, hc⟩⟩
  · obtain ⟨-, hor, -⟩ := (row_matches_iff (List.mem_of_getElem? hr) v).1 hvr
    obtain ⟨-, hoq, -⟩ := (row_matches_iff (List.mem_of_getElem? hq) v).1 hvq
    have hnodup : (opcodeRows.map fun row => opOf row.pattern).Nodup := by decide
    obtain ⟨hk, -⟩ := List.getElem?_eq_some_iff.1 hr
    refine (List.getElem?_inj (by simpa using hk) hnodup).1 ?_
    rw [List.getElem?_map, List.getElem?_map, hr, hq, Option.map_some, Option.map_some, ← hor, ← hoq]

/-! ### The reserved words (30_encoding.md R84) -/

/-- Settles O4: `ZERO` is looked at first, then the kind of the opcode, then `IMM`. -/
theorem reservedWordsAreRejectedByName : Obligations.ReservedWordsAreRejectedByName := by
  intro v
  by_cases hz : zeroOf v = 0
  · rw [decode, if_pos hz]
    rcases decodeFields_cases (opOf v) (immOf v) with ⟨hop, j, hd⟩ | ⟨hop, i, hd⟩ | ⟨hop, hd⟩ <;> rw [hd]
    · have hassigned := mem_opcodes_iff.2 (.inl hop)
      rw [formatN]
      split <;> simp [*]
    · simp [hz, not_mem_formatN_opcodes hop, mem_opcodes_iff.2 (.inr hop)]
    · have hN : opOf v ∉ [1, 2, 3, 4, 16] := fun hn => hop (mem_opcodes_iff.2 (.inl hn))
      simp [hz, hop, hN]
  · simp [decode, hz]

/-! ### The legal words (30_encoding.md R84) -/

/-- The round indices of format I (30_encoding.md R80). -/
def roundIndices : List Int := (List.range 256).map fun k : Nat => (k : Int) - 128

theorem mem_roundIndices {ir : Int} : ir ∈ roundIndices ↔ wfIndex ir = true := by
  simp only [roundIndices, List.mem_map, List.mem_range, wfIndex, Bool.and_eq_true, decide_eq_true_eq]
  exact ⟨fun ⟨k, hk, h⟩ => by omega, fun h => ⟨(ir + 128).toNat, by omega, by omega⟩⟩

theorem nodup_roundIndices : roundIndices.Nodup :=
  List.nodup_range.map fun a b h => by simpa using h

/-- Every well-formed command, once: five of format N, then IOTA, ROUND and KECCAKP with each operand. -/
def legalCommands : List Instr :=
  [.theta, .rho, .pi, .chi, .shake128] ++ (roundIndices.map .iota ++ (roundIndices.map .round ++
    (List.range 256).map .keccakp))

theorem length_legalCommands : legalCommands.length = 773 := by
  rw [legalCommands, roundIndices]
  simp only [List.length_append, List.length_map, List.length_range, List.length_cons, List.length_nil]

theorem mem_legalCommands {i : Instr} : i ∈ legalCommands ↔ i.wf = true := by
  cases i <;> simp [legalCommands, mem_roundIndices, Instr.wf, wfCount, Nat.lt_succ_iff]

theorem nodup_legalCommands : legalCommands.Nodup := by
  have hiota : (roundIndices.map Instr.iota).Nodup := nodup_roundIndices.map fun _ _ => Instr.iota.inj
  have hround : (roundIndices.map Instr.round).Nodup := nodup_roundIndices.map fun _ _ => Instr.round.inj
  have hcount : ((List.range 256).map Instr.keccakp).Nodup := List.nodup_range.map fun _ _ => Instr.keccakp.inj
  simp [legalCommands, List.nodup_append', hiota, hround, hcount, List.disjoint_left]

/-- Settles O5: the encodings of the well-formed commands, pairwise different because `encode` is injective on them. -/
theorem legalCommandWordsNumber773 : Obligations.LegalCommandWordsNumber773 := by
  refine ⟨legalCommands.map encode, by rw [List.length_map, length_legalCommands], ?_, fun v => ?_⟩
  · exact nodup_legalCommands.map_on fun i hi j hj =>
      eq_of_encode_eq (mem_legalCommands.1 hi) (mem_legalCommands.1 hj)
  · rw [List.mem_map]
    constructor
    · rintro ⟨i, hi, rfl⟩
      exact ⟨i, decode_encode (mem_legalCommands.1 hi)⟩
    · rintro ⟨i, hd⟩
      exact ⟨i, mem_legalCommands.2 (wf_of_decode hd), encode_of_decode hd⟩

/-- Settles O6: the words are closed, so each is decoded by evaluation. -/
theorem exampleWordsDecode : Obligations.ExampleWordsDecode := by
  refine ⟨?_, ?_, ?_, ?_, ?_, ?_, ?_, ?_, ?_, ?_, ?_⟩ <;> decide

/-! ### The script line `cmd` (30_encoding.md R86) -/

/-- Settles O45: the write is accepted, and while the host polls the engine moves first. -/
theorem scriptCommandLineRunsTheCommand : Obligations.ScriptCommandLineRunsTheCommand := by
  intro s i rest hwf hb hf hh
  have hm : s.hostMoves = true := State.hostMoves_of_idle (State.busy_eq_false.1 hb)
  obtain ⟨hissue, -⟩ := cmdWriteIssuesTheWord.1 s (encode i) (.poll :: rest) hm hh
  obtain ⟨n, hn⟩ := hissue hb hf
  refine ⟨n, _, hn, rfl, ?_⟩
  obtain ⟨hstep, -⟩ := stepRunsTheAcceptedCommand
    { s with host := .poll :: rest, seq := .running (encode i) n, draws := s.draws + 1 } (encode i) n i rfl rfl
    (decode_encode hwf)
  exact hstep

end Sys2Proof.Machine

/-! ## The bit buffer (40_bit_buffer.md R100 to R104) -/

namespace Sys2Proof.Machine

/-! ### The bits of a register and the number they make (20_memory.md R53) -/

/-- A register is made back from its bits. -/
@[simp] theorem ofBits_bitsFrom {n : Nat} (v : BitVec n) : ofBits n (bitsFrom n v) = v := by
  refine BitVec.eq_of_getLsbD_eq fun i hi => ?_
  rw [getLsbD_ofBits, getD_bitsFrom]
  simp [hi]

/-- A sequence is read back from the register it fills. -/
theorem bitsFrom_ofBits {n : Nat} {X : List Bool} (hX : X.length = n) : bitsFrom n (ofBits n X) = X := by
  subst hX
  refine List.ext_getElem (length_bitsFrom _ _) fun i _ hi => Option.some.inj ?_
  rw [← List.getElem?_eq_getElem, getElem?_bitsFrom _ _ hi, getLsbD_ofBits]
  simp [hi]

/-- The low `n` bits of a number, each at its weight. -/
theorem sum_testBit_mul_two_pow (x n : Nat) :
    ((List.range n).map fun j => (x.testBit j).toNat * 2 ^ j).sum = x % 2 ^ n := by
  induction n with
  | zero => simp [Nat.mod_one]
  | succ n ih =>
    rw [List.range_succ, List.map_append, List.sum_append, ih, Nat.mod_pow_succ, ← Nat.toNat_testBit]
    simp [Nat.mul_comm]

/-- A byte is the sum of its bits, each at its weight. -/
theorem byte_toNat_eq_sum (b : Byte) :
    b.toNat = ((List.range 8).map fun j => (b.getLsbD j).toNat * 2 ^ j).sum :=
  ((sum_testBit_mul_two_pow b.toNat 8).trans (Nat.mod_eq_of_lt b.isLt)).symm

/-! ### Bytes to bits (40_bit_buffer.md R100) -/

@[simp] theorem bitsOf_nil : bitsOf [] = [] := rfl

@[simp] theorem bitsOf_cons (b : Byte) (B : List Byte) : bitsOf (b :: B) = bitsFrom 8 b ++ bitsOf B := rfl

/-- `X[8i+j]` is bit `j` of `B[i]`. -/
theorem getElem?_bitsOf {B : List Byte} {i : Nat} {b : Byte} (hb : B[i]? = some b) {j : Nat} (hj : j < 8) :
    (bitsOf B)[8 * i + j]? = some (b.getLsbD j) := by
  induction B generalizing i with
  | nil => simp at hb
  | cons c B ih =>
    cases i with
    | zero =>
      obtain rfl : c = b := by simpa using hb
      rw [bitsOf_cons, List.getElem?_append_left (by simpa using hj), Nat.mul_zero, Nat.zero_add,
        getElem?_bitsFrom 8 c hj]
    | succ i =>
      rw [bitsOf_cons, List.getElem?_append_right (by rw [length_bitsFrom]; omega), length_bitsFrom,
        show 8 * (i + 1) + j - 8 = 8 * i + j by omega]
      exact ih (by simpa using hb)

/-! ### Bits to bytes and back (40_bit_buffer.md R101, R103) -/

/-- Packing the bits of bytes gives the bytes. -/
theorem packBytes_bitsOf (B : List Byte) : packBytes B.length (bitsOf B) = B := by
  induction B with
  | nil => rfl
  | cons b B ih =>
    rw [List.length_cons, packBytes, bitsOf_cons, List.take_left' (length_bitsFrom 8 b),
      List.drop_left' (length_bitsFrom 8 b), ofBits_bitsFrom, ih]

/-- The bits of the packed bytes are the sequence that was packed. -/
theorem bitsOf_packBytes {n : Nat} {X : List Bool} (hX : X.length = 8 * n) : bitsOf (packBytes n X) = X := by
  induction n generalizing X with
  | zero => rw [packBytes, bitsOf_nil, List.length_eq_zero_iff.1 hX]
  | succ n ih =>
    have hbyte : (X.take 8).length = 8 := by rw [List.length_take]; omega
    have hrest : (X.drop 8).length = 8 * n := by rw [List.length_drop]; omega
    rw [packBytes, bitsOf_cons, bitsFrom_ofBits hbyte, ih hrest, List.take_append_drop]

theorem bytesOf_of_mod_eq_zero {X : List Bool} (h : X.length % 8 = 0) :
    bytesOf X = some (packBytes (X.length / 8) X) := if_pos h

theorem bytesOf_of_mod_ne_zero {X : List Bool} (h : X.length % 8 ≠ 0) : bytesOf X = none := if_neg h

@[simp] theorem bytesOf_bitsOf (B : List Byte) : bytesOf (bitsOf B) = some B := by
  have hlen : (bitsOf B).length / 8 = B.length := by rw [length_bitsOf]; omega
  rw [bytesOf_of_mod_eq_zero (by rw [length_bitsOf]; omega), hlen, packBytes_bitsOf]

/-- Byte `k` is the sum of `X[8k+j] * 2^j`. -/
theorem byte_toNat_eq_sum_bitsOf {B : List Byte} {k : Nat} {b : Byte} (hb : B[k]? = some b) :
    b.toNat = ((List.range 8).map fun j => ((bitsOf B).getD (8 * k + j) false).toNat * 2 ^ j).sum := by
  rw [byte_toNat_eq_sum]
  congr 1
  refine List.map_congr_left fun j hj => ?_
  rw [List.getD_eq_getElem?_getD, getElem?_bitsOf hb (List.mem_range.1 hj), Option.getD_some]

/-- Settles O19: packing and unpacking undo each other byte by byte, and the byte sum is `b.toNat` bit by bit. -/
theorem bitsAndBytesAreInverse : Obligations.BitsAndBytesAreInverse := by
  refine ⟨fun B => ⟨length_bitsOf B, bytesOf_bitsOf B, fun i b hb j => getElem?_bitsOf hb⟩, fun X hX => ?_,
    fun X => bytesOf_of_mod_ne_zero⟩
  have hback : bitsOf (packBytes (X.length / 8) X) = X := bitsOf_packBytes (by omega)
  refine ⟨_, bytesOf_of_mod_eq_zero hX, length_packBytes _ X, hback, fun k b hb => ?_⟩
  have hsum := byte_toNat_eq_sum_bitsOf hb
  rwa [hback] at hsum

/-! ### The text of bytes (40_bit_buffer.md R102, R104) -/

/-- The digit table and the library's digits agree on the halves of a byte. -/
theorem hexDigit_eq_digitChar : ∀ v < 16, hexDigit v = Nat.digitChar v := by decide

theorem hexByte_eq_digitChars (b : Byte) :
    hexByte b = [Nat.digitChar (b.toNat / 16), Nat.digitChar (b.toNat % 16)] := by
  have hb := b.isLt
  rw [hexByte, hexDigit_eq_digitChar _ (by omega), hexDigit_eq_digitChar _ (by omega)]

/-- Settles O20: `bytes_of` gives the bytes back, and each is written as its two digits. -/
theorem hexTextReproducesTheBytes : Obligations.HexTextReproducesTheBytes := by
  intro B
  rw [hexOf, bytesOf_bitsOf, Option.map_some, funext hexByte_eq_digitChars]

end Sys2Proof.Machine

/-! ## The step mappings (41_step_mappings.md R110 to R119) -/

namespace Sys2Proof.Machine

/-! ### Indices modulo the lane size and modulo 5 (00_scope.md R8) -/

@[simp] theorem imod_natCast (a n : Nat) : imod a n = a % n := rfl

theorem imod_lt (a : Int) {n : Nat} (hn : 0 < n) : imod a n < n := by
  have hlt := Int.emod_lt_of_pos a (Int.natCast_pos.2 hn)
  rw [imod]
  omega

/-- A rotation by `n` moves every bit from `z` to `(z+n) mod w` (10_state.md R23). -/
theorem getLsbD_rotateLeft_eq_imod {w z : Nat} (L : BitVec w) (n : Nat) (hz : z < w) :
    (L.rotateLeft n).getLsbD z = L.getLsbD (imod ((z : Int) - n) w) := by
  have hn : n % w < w := Nat.mod_lt _ (by omega)
  rw [BitVec.getLsbD_rotateLeft, imod, ← Int.sub_emod_emod, ← Int.natCast_emod]
  by_cases h : z < n % w
  · have hwrap : ((z : Int) - (n % w : Nat)) % w = (w - n % w + z : Nat) := by
      rw [← Int.add_emod_right, Int.emod_eq_of_lt] <;> omega
    rw [hwrap, decide_eq_true h, cond_true, Int.toNat_natCast]
  · have hstay : ((z : Int) - (n % w : Nat)) % w = (z - n % w : Nat) := by
      rw [Int.emod_eq_of_lt] <;> omega
    rw [hstay, decide_eq_false h, cond_false, Int.toNat_natCast, decide_eq_true hz, Bool.true_and]

/-! ### What a permutation command leaves, bit by bit (41_step_mappings.md R110) -/

/-- A permutation command at a legal width completes, and the bits it leaves are those of its array function. -/
theorem exec_permutation_bits {i : Instr} {s : State} {w : Nat} (hi : i.isPermutation = true) (h : s.atWidth w) :
    ∃ t, exec i s = .next t ∧ onlyActive w s t ∧ ∀ x y : Nat, x < 5 → y < 5 → ∀ z < w,
      bitA w t.S x y z = ((permutationOf i w (toArray w s.S)).at x y).getLsbD z := by
  obtain ⟨hw, hw'⟩ := laneSize_bounds h.1
  refine ⟨_, exec_permutation_atWidth hi h, ⟨rfl, fun k hk => ?_⟩, fun x y hx hy z hz => ?_⟩
  · exact getLsbD_putArray_high _ (length_permutationOf _ (length_toArray w s.S)) _ hw hk
  · exact bitA_putArray _ _ hw' hx hy hz

/-- A permutation command after another reads back the array that one wrote, and its own replaces it. -/
theorem exec_permutation_putArray {i : Instr} {s : State} {w : Nat} (hi : i.isPermutation = true) (h : s.atWidth w)
    {A : Lanes w} (hA : A.length = 25) :
    exec i { s.finish with S := putArray A s.S } =
      .next { s.finish with S := putArray (permutationOf i w A) s.S } := by
  obtain ⟨hw, hw'⟩ := laneSize_bounds h.1
  rw [exec_permutation_atWidth hi (show State.atWidth { s.finish with S := putArray A s.S } w from h),
    toArray_putArray A hA s.S hw', putArray_putArray A _ hA (length_permutationOf A hA) s.S hw hw']
  rfl

section
variable {w x y z : Nat} (S : BitVec 1600)

/-! ### Theta (R111) -/

theorem getLsbD_parity_toArray (hx : x < 5) (hz : z < w) :
    (parity (toArray w S) x).getLsbD z = bitC w S x z := by
  simp only [parity, bitC, BitVec.getLsbD_xor, bitA_eq w S hx _ hz, Nat.reduceLT]

theorem getLsbD_thetaMap_toArray (hx : x < 5) (hy : y < 5) (hz : z < w) :
    ((thetaMap (toArray w S)).at x y).getLsbD z =
      (bitA w S x y z ^^
        (bitC w S (imod ((x : Int) - 1) 5) z ^^ bitC w S (imod ((x : Int) + 1) 5) (imod ((z : Int) - 1) w))) := by
  have hleft : (x + 4) % 5 = imod ((x : Int) - 1) 5 := by rw [imod]; omega
  have hright : (x + 1) % 5 = imod ((x : Int) + 1) 5 := by rw [imod]; omega
  rw [thetaMap, Lanes.at_build _ hx hy, thetaEffect, BitVec.getLsbD_xor, BitVec.getLsbD_xor,
    getLsbD_rotateLeft_eq_imod _ 1 hz, Nat.cast_one, getLsbD_parity_toArray S (Nat.mod_lt _ (by omega)) hz,
    getLsbD_parity_toArray S (Nat.mod_lt _ (by omega)) (imod_lt _ (by omega)), ← bitA_eq w S hx hy hz, hleft, hright]

/-! ### Rho (R112 to R114) -/

theorem getLsbD_rhoMap_toArray (hx : x < 5) (hy : y < 5) (hz : z < w) :
    ((rhoMap (toArray w S)).at x y).getLsbD z = bitA w S x y (imod ((z : Int) - rhoOffset x y) w) := by
  rw [rhoMap, Lanes.at_build _ hx hy, getLsbD_rotateLeft_eq_imod _ _ hz, bitA_eq w S hx hy (imod_lt _ (by omega))]

/-- The table of raw offsets lists the triangular numbers along the visits (R113, R114). -/
theorem rhoOffset_rhoVisit :
    ∀ k < 24, rhoOffset (rhoVisit k).1 (rhoVisit k).2 = (k + 1) * (k + 2) / 2 := by decide

theorem rhoVisit_in_array : ∀ k < 24, (rhoVisit k).1 < 5 ∧ (rhoVisit k).2 < 5 ∧ rhoVisit k ≠ (0, 0) := by decide

theorem exists_rhoVisit : ∀ x < 5, ∀ y < 5, (x, y) ≠ (0, 0) → ∃ k < 24, rhoVisit k = (x, y) := by decide

theorem rhoVisit_inj : ∀ k < 24, ∀ m < 24, rhoVisit m = rhoVisit k → m = k := by decide

/-! ### Pi, chi and iota (R115, R116, R119) -/

theorem getLsbD_piMap_toArray (hx : x < 5) (hy : y < 5) (hz : z < w) :
    ((piMap (toArray w S)).at x y).getLsbD z = bitA w S ((x + 3 * y) % 5) x z := by
  rw [piMap, Lanes.at_build _ hx hy, bitA_eq w S (Nat.mod_lt _ (by omega)) hx hz]

theorem getLsbD_chiMap_toArray (hx : x < 5) (hy : y < 5) (hz : z < w) :
    ((chiMap (toArray w S)).at x y).getLsbD z =
      (bitA w S x y z ^^ ((bitA w S ((x + 1) % 5) y z ^^ true) && bitA w S ((x + 2) % 5) y z)) := by
  rw [chiMap, Lanes.at_build _ hx hy, bitA_eq w S hx hy hz, bitA_eq w S (Nat.mod_lt _ (by omega)) hy hz,
    bitA_eq w S (Nat.mod_lt _ (by omega)) hy hz]
  simp [hz]

end

theorem Lanes.at_iotaMap_zero {w : Nat} (ir : Int) (A : Lanes w) :
    (iotaMap ir A).at 0 0 = A.at 0 0 ^^^ roundConstant w ir := by
  rw [iotaMap, Lanes.at_build _ (by omega) (by omega), if_pos ⟨rfl, rfl⟩]

theorem Lanes.at_iotaMap_other {w x y : Nat} (ir : Int) (A : Lanes w) (hx : x < 5) (hy : y < 5)
    (h : (x, y) ≠ (0, 0)) : (iotaMap ir A).at x y = A.at x y := by
  rw [iotaMap, Lanes.at_build _ hx hy, if_neg fun h0 => h (Prod.ext h0.1 h0.2)]

/-- The same constant twice cancels (R119). -/
theorem iotaMap_iotaMap {w : Nat} (ir : Int) {A : Lanes w} (hA : A.length = 25) : iotaMap ir (iotaMap ir A) = A := by
  refine Lanes.ext_at (length_iotaMap _ _) hA fun x hx y hy => ?_
  by_cases h : (x, y) = (0, 0)
  · obtain ⟨rfl, rfl⟩ := Prod.mk.inj h
    rw [Lanes.at_iotaMap_zero, Lanes.at_iotaMap_zero, BitVec.xor_assoc, BitVec.xor_self, BitVec.xor_zero]
  · rw [Lanes.at_iotaMap_other ir _ hx hy h, Lanes.at_iotaMap_other ir _ hx hy h]

/-! ### The word of a signed operand (30_encoding.md R82) -/

/-- A byte read as a signed operand is a round index of format I (30_encoding.md R80, R82). -/
theorem wfIndex_toInt (imm : Byte) : wfIndex imm.toInt = true := by
  have hlo := imm.le_toInt
  have hhi := imm.toInt_lt
  simp only [wfIndex, Bool.and_eq_true, decide_eq_true_eq]
  omega

/-- The word of a signed operand holds its byte in `IMM` (30_encoding.md R82). -/
theorem assemble_toInt (op : Nat) (imm : Byte) : assemble op imm.toInt = BitVec.ofNat 32 (op + 256 * imm.toNat) := by
  have himm : (imm.toInt % 256).toNat = imm.toNat := by
    have := imm.isLt
    rw [BitVec.toInt_eq_toNat_cond]
    split <;> omega
  rw [assemble, himm]

/-! ### The obligations on the commands -/

/-- Settles O7: bit `z` of a lane's column parity is `C[x,z]`, and the rotation by 1 reads it at `z-1`. -/
theorem thetaAddsColumnParities : Obligations.ThetaAddsColumnParities := by
  refine ⟨by decide, fun s w h => ?_⟩
  obtain ⟨t, he, hact, hbit⟩ := exec_permutation_bits (i := .theta) rfl h
  exact ⟨t, he, hact, fun x y hx hy z hz => (hbit x y hx hy z hz).trans (getLsbD_thetaMap_toArray s.S hx hy hz)⟩

/-- Settles O8: the traversal is a closed fact, and every visited lane is rotated by its offset in the table. -/
theorem rhoRotatesVisitedLanesByTriangularNumbers : Obligations.RhoRotatesVisitedLanesByTriangularNumbers := by
  refine ⟨by decide, ⟨rfl, fun _ => rfl, by decide⟩, fun x y hx hy hne => ?_, rhoVisit_in_array, fun s w h => ?_⟩
  · obtain ⟨k, hk, hv⟩ := exists_rhoVisit x hx y hy hne
    exact ⟨k, hk, hv, fun m hm hvm => rhoVisit_inj k hk m hm (hvm.trans hv.symm)⟩
  obtain ⟨t, he, hact, hbit⟩ := exec_permutation_bits (i := .rho) rfl h
  have hrho : ∀ x y : Nat, x < 5 → y < 5 → ∀ z < w,
      bitA w t.S x y z = bitA w s.S x y (imod ((z : Int) - rhoOffset x y) w) := fun x y hx hy z hz =>
    (hbit x y hx hy z hz).trans (getLsbD_rhoMap_toArray s.S hx hy hz)
  refine ⟨t, he, hact, fun z hz => ?_, fun k hk z hz => ?_⟩
  · have hzero : imod ((z : Int) - rhoOffset 0 0) w = z := by
      simpa [rhoOffset, rhoOffsets] using Nat.mod_eq_of_lt hz
    rw [hrho 0 0 (by omega) (by omega) z hz, hzero]
  · obtain ⟨hx, hy, -⟩ := rhoVisit_in_array k hk
    rw [hrho _ _ hx hy z hz, rhoOffset_rhoVisit k hk]

/-- Settles O9: the inverse form reads the same formula at `(y, 2x+3y)`, where `y + 3(2x+3y) = x` modulo 5. -/
theorem piMovesLanes : Obligations.PiMovesLanes := by
  refine ⟨by decide, fun s w h => ?_⟩
  obtain ⟨t, he, hact, hbit⟩ := exec_permutation_bits (i := .pi) rfl h
  have hpi : ∀ x y : Nat, x < 5 → y < 5 → ∀ z < w, bitA w t.S x y z = bitA w s.S ((x + 3 * y) % 5) x z :=
    fun x y hx hy z hz => (hbit x y hx hy z hz).trans (getLsbD_piMap_toArray s.S hx hy hz)
  refine ⟨t, he, hact, fun x y hx hy z hz => hpi x y hx hy z hz, fun x y hx hy z hz => ?_⟩
  have hinv : (y + 3 * imod (2 * (x : Int) + 3 * y) 5) % 5 = x := by rw [imod]; omega
  rw [hpi y _ hy (imod_lt _ (by omega)) z hz, hinv]

/-- Settles O10: the complement of a lane's bit is its xor with 1. -/
theorem chiMixesRows : Obligations.ChiMixesRows := by
  refine ⟨by decide, fun s w h => ?_⟩
  obtain ⟨t, he, hact, hbit⟩ := exec_permutation_bits (i := .chi) rfl h
  exact ⟨t, he, hact, fun x y hx hy z hz => (hbit x y hx hy z hz).trans (getLsbD_chiMap_toArray s.S hx hy hz)⟩

/-- Settles O11: lane `(0,0)` is the only one whose function is not the identity. -/
theorem iotaAddsRoundConstantToLaneZero : Obligations.IotaAddsRoundConstantToLaneZero := by
  refine ⟨fun imm => ?_, fun s w ir h => ?_⟩
  · rw [← assemble_toInt]
    exact decode_encode (i := .iota imm.toInt) (wfIndex_toInt imm)
  · obtain ⟨t, he, hact, hbit⟩ := exec_permutation_bits (i := .iota ir) rfl h
    refine ⟨t, he, hact, fun z hz => ?_, fun x y hx hy hne z hz => ?_⟩
    · rw [hbit 0 0 (by omega) (by omega) z hz, permutationOf, Lanes.at_iotaMap_zero, BitVec.getLsbD_xor,
        bitA_eq w s.S (by omega) (by omega) hz]
    · rw [hbit x y hx hy z hz, permutationOf, Lanes.at_iotaMap_other ir _ hx hy hne, bitA_eq w s.S hx hy hz]

/-- Settles O12: the second command reads back the array the first one wrote. -/
theorem iotaTwiceRestoresTheState : Obligations.IotaTwiceRestoresTheState := by
  intro s w ir h
  obtain ⟨hw, hw'⟩ := laneSize_bounds h.1
  have hcancel : permutationOf (.iota ir) w (permutationOf (.iota ir) w (toArray w s.S)) = toArray w s.S :=
    iotaMap_iotaMap ir (length_toArray w s.S)
  rw [execThen, exec_permutation_atWidth (i := .iota ir) rfl h]
  refine (exec_permutation_putArray rfl h (length_permutationOf _ (length_toArray w s.S))).trans ?_
  rw [hcancel, putArray_toArray w s.S hw hw']
  rfl

/-! ### The bit generator `rc` (R117) -/

/-- One iteration on the byte is one iteration on the eight bits, position 0 the least significant. -/
theorem lfsrStep_bitsVal {R : List Bool} (hR : R.length = 8) :
    lfsrStep (bitsVal R) = bitsVal (rcRegisterStep R) := by
  match R, hR with
  | [a, b, c, d, e, f, g, h], _ => revert a b c d e f g h; decide

theorem length_rcRegister (n : Nat) : (rcRegister n).length = 8 := by
  cases n <;> rfl

theorem lfsr_eq_bitsVal_rcRegister (n : Nat) : lfsr n = bitsVal (rcRegister n) := by
  induction n with
  | zero => rfl
  | succ n ih => rw [lfsr, ih, lfsrStep_bitsVal (length_rcRegister n), rcRegister]

/-- `rc` depends on its argument modulo 255 alone. -/
theorem rc_congr {t u : Int} (h : t % 255 = u % 255) : rc t = rc u := by rw [rc, rc, h]

/-- Settles O13: bit 0 of the byte is position 0 of the register. -/
theorem rcIsTheRegisterOutput : Obligations.RcIsTheRegisterOutput := by
  intro t
  have hrc : rc t = (rcRegister (imod t 255)).getD 0 false := by
    rw [rc, lfsr_eq_bitsVal_rcRegister, bitsVal_testBit]
    rfl
  exact ⟨hrc, fun h => by rw [hrc, h]; rfl, rc_congr (Int.add_emod_right t 255)⟩

/-! ### The round constant (R118) -/

/-- The bits that are set in a disjunction of single bits, each placed or not. -/
theorem getLsbD_foldr_placed {w : Nat} (c : Nat → Bool) (p : Nat → Nat) (J : List Nat) (z : Nat) :
    (J.foldr (fun j R => (if c j then (1 : BitVec w) <<< p j else 0) ||| R) 0).getLsbD z = true ↔
      z < w ∧ ∃ j ∈ J, z = p j ∧ c j = true := by
  induction J with
  | nil => simp
  | cons j J ih =>
    have hone : ((1 : BitVec w) <<< p j).getLsbD z = true ↔ z < w ∧ z = p j := by
      rw [show (1 : BitVec w) <<< p j = BitVec.twoPow w (p j) from rfl, BitVec.getLsbD_twoPow]
      simp only [Bool.and_eq_true, decide_eq_true_eq]
      omega
    rw [List.foldr_cons, BitVec.getLsbD_or, Bool.or_eq_true, ih, List.exists_mem_cons_iff, and_or_left]
    refine or_congr ?_ Iff.rfl
    cases hc : c j with
    | false => simp
    | true => rw [if_pos rfl, hone, and_iff_left rfl]

/-- The bits set in the round constant: `2^j - 1` for those `j` in `0..l` with `rc(j + 7 ir) = 1`. -/
theorem getLsbD_roundConstant_iff (l : Nat) (ir : Int) (z : Nat) :
    (roundConstant (2 ^ l) ir).getLsbD z = true ↔ ∃ j ≤ l, z = 2 ^ j - 1 ∧ rc (j + 7 * ir) = true := by
  rw [roundConstant, getLsbD_foldr_placed, laneLog, Nat.log2_two_pow]
  simp only [List.mem_range, Nat.lt_succ_iff, and_iff_right_iff_imp]
  rintro ⟨j, hj, rfl, -⟩
  have hle : 2 ^ j ≤ 2 ^ l := Nat.pow_le_pow_right (by omega) hj
  have hpos := Nat.two_pow_pos j
  omega

theorem two_pow_sub_one_inj {i j : Nat} (h : 2 ^ i - 1 = 2 ^ j - 1) : i = j := by
  have hi := Nat.two_pow_pos i
  have hj := Nat.two_pow_pos j
  exact Nat.pow_right_injective (Nat.le_refl 2) (show 2 ^ i = 2 ^ j by omega)

/-- The constant of a narrower lane is the low bits of the constant of a wider one. -/
theorem getLsbD_roundConstant_of_le {l m : Nat} (hlm : l ≤ m) (ir : Int) {z : Nat} (hz : z < 2 ^ l) :
    (roundConstant (2 ^ l) ir).getLsbD z = (roundConstant (2 ^ m) ir).getLsbD z := by
  rw [Bool.eq_iff_iff, getLsbD_roundConstant_iff, getLsbD_roundConstant_iff]
  constructor
  · rintro ⟨j, hj, hzj, hrc⟩
    exact ⟨j, hj.trans hlm, hzj, hrc⟩
  · rintro ⟨j, -, rfl, hrc⟩
    have hjl : j ≤ l := (Nat.pow_le_pow_iff_right (by omega)).1 (show 2 ^ j ≤ 2 ^ l by omega)
    exact ⟨j, hjl, rfl, hrc⟩

theorem roundConstant_add_period (w : Nat) (ir : Int) : roundConstant w (ir + 255) = roundConstant w ir := by
  have hrc : ∀ j : Nat, rc (j + 7 * (ir + 255)) = rc (j + 7 * ir) := fun j => rc_congr (by omega)
  simp only [roundConstant, hrc]

/-- Settles O14: the bits set are those at `2^j - 1`, and different `j` have different positions. -/
theorem roundConstantHasRcBits : Obligations.RoundConstantHasRcBits := by
  intro l ir hl
  refine ⟨fun j hj => ?_, fun z hz => ?_, fun z hz => getLsbD_roundConstant_of_le (m := 6) hl ir hz,
    roundConstant_add_period _ ir⟩
  · rw [Bool.eq_iff_iff, getLsbD_roundConstant_iff]
    constructor
    · rintro ⟨i, -, hpos, hrc⟩
      rwa [two_pow_sub_one_inj hpos]
    · exact fun hrc => ⟨j, hj, rfl, hrc⟩
  · rw [Bool.eq_false_iff, ne_eq, getLsbD_roundConstant_iff]
    rintro ⟨j, hj, hzj, -⟩
    exact hz j hj hzj

end Sys2Proof.Machine

/-! ## The round and the permutation (42_round_permutation.md R140 to R144) -/

namespace Sys2Proof.Machine

/-! ### One command after another -/

/-- Where the first command completes, the second runs from the state it left. -/
theorem execThen_of_exec {i : Instr} {s t : State} (k : State → Host.Outcome State Fault Refusal)
    (h : exec i s = .next t) : execThen i k s = k t := by
  rw [execThen, h]

/-- A permutation command and then `k`: `k` runs from the state with the command's array. -/
theorem execThen_permutation {i : Instr} {s : State} {w : Nat} (k : State → Host.Outcome State Fault Refusal)
    (hi : i.isPermutation = true) (h : s.atWidth w) :
    execThen i k s = k { s.finish with S := putArray (permutationOf i w (toArray w s.S)) s.S } :=
  execThen_of_exec k (exec_permutation_atWidth hi h)

/-- The same after an earlier permutation command wrote the array `A`. -/
theorem execThen_permutation_putArray {i : Instr} {s : State} {w : Nat}
    (k : State → Host.Outcome State Fault Refusal) (hi : i.isPermutation = true) (h : s.atWidth w) {A : Lanes w}
    (hA : A.length = 25) : execThen i k { s.finish with S := putArray A s.S } =
      k { s.finish with S := putArray (permutationOf i w A) s.S } :=
  execThen_of_exec k (exec_permutation_putArray hi h hA)

/-! ### The round schedule (R142) -/

/-- The full round count at lane size `2^l` (00_scope.md R4). -/
theorem fullRounds_two_pow (l : Nat) : fullRounds (2 ^ l) = 12 + 2 * l := by
  rw [fullRounds, laneLog, Nat.log2_two_pow]

/-- The array function of ROUND is those of the five commands in the order of R140. -/
theorem permutationOf_round {w : Nat} (ir : Int) (A : Lanes w) : permutationOf (.round ir) w A =
    permutationOf (.iota ir) w (permutationOf .chi w (permutationOf .pi w (permutationOf .rho w
      (permutationOf .theta w A)))) := rfl

/-- With no round the array stays as it is. -/
theorem permutationOf_keccakp_zero {w : Nat} (A : Lanes w) : permutationOf (.keccakp 0) w A = A := rfl

/-- The last `n+1` rounds of the schedule are round `12+2l-(n+1)` and then the last `n` rounds. -/
theorem permutationOf_keccakp_succ {w : Nat} (n : Nat) (A : Lanes w) : permutationOf (.keccakp (n + 1)) w A =
    permutationOf (.keccakp n) w (permutationOf (.round ((fullRounds w : Int) - (n + 1))) w A) := by
  have hnext : (fullRounds w : Int) - (n + 1) + 1 = fullRounds w - n := by omega
  simp only [permutationOf, keccakRounds, rounds, Nat.cast_succ, hnext]

/-! ### The word of an unsigned operand (30_encoding.md R82) -/

/-- The word of an unsigned operand holds its byte in `IMM`. -/
theorem assemble_toNat (op : Nat) (imm : Byte) : assemble op imm.toNat = BitVec.ofNat 32 (op + 256 * imm.toNat) := by
  have himm : ((imm.toNat : Int) % 256).toNat = imm.toNat := by
    have := imm.isLt
    omega
  rw [assemble, himm]

/-- A byte read as an unsigned operand is a round count of format U (30_encoding.md R80). -/
theorem wfCount_toNat (imm : Byte) : wfCount imm.toNat = true :=
  decide_eq_true (Nat.le_of_lt_succ imm.isLt)

/-! ### The obligations on ROUND and KECCAKP -/

/-- Settles O15: each of the five commands reads back the array the one before it wrote, so the arrays compose to
the round function. -/
theorem roundIsTheFiveStepsInOrder : Obligations.RoundIsTheFiveStepsInOrder := by
  refine ⟨fun imm => ?_, fun s w ir h => ?_⟩
  · rw [← assemble_toInt]
    exact decode_encode (i := .round imm.toInt) (wfIndex_toInt imm)
  · obtain ⟨t, he, hact, -⟩ := exec_permutation_bits (i := .round ir) rfl h
    refine ⟨t, he, hact, ?_⟩
    have htheta := length_permutationOf (i := .theta) _ (length_toArray w s.S)
    have hrho := length_permutationOf (i := .rho) _ htheta
    have hpi := length_permutationOf (i := .pi) _ hrho
    have hchi := length_permutationOf (i := .chi) _ hpi
    rw [← he, exec_permutation_atWidth (i := .round ir) rfl h, permutationOf_round, execThen_permutation _ rfl h,
      execThen_permutation_putArray _ rfl h htheta, execThen_permutation_putArray _ rfl h hrho,
      execThen_permutation_putArray _ rfl h hpi, exec_permutation_putArray (i := .iota ir) rfl h hchi]

/-- Settles O16: the first of the last `n+1` rounds writes the array that the last `n` rounds read back. -/
theorem keccakpRunsTheLastRounds : Obligations.KeccakpRunsTheLastRounds := by
  refine ⟨fun imm => ?_, fun s l _ h => ⟨?_, fun n => ?_⟩⟩
  · rw [← assemble_toNat]
    exact decode_encode (i := .keccakp imm.toNat) (wfCount_toNat imm)
  · obtain ⟨hw, hw'⟩ := laneSize_bounds h.1
    rw [exec_permutation_atWidth (i := .keccakp 0) rfl h, permutationOf_keccakp_zero,
      putArray_toArray _ _ hw hw']
    rfl
  · obtain ⟨t, he, hact, -⟩ := exec_permutation_bits (i := .keccakp (n + 1)) rfl h
    refine ⟨t, he, hact, ?_⟩
    have hindex : 12 + 2 * (l : Int) - (n + 1) = (fullRounds (2 ^ l) : Int) - (n + 1) := by
      rw [fullRounds_two_pow]
      omega
    have hround := length_permutationOf (i := .round ((fullRounds (2 ^ l) : Int) - (n + 1))) _
      (length_toArray (2 ^ l) s.S)
    rw [← he, exec_permutation_atWidth (i := .keccakp (n + 1)) rfl h, permutationOf_keccakp_succ, hindex,
      execThen_permutation _ rfl h, exec_permutation_putArray (i := .keccakp n) rfl h hround]

end Sys2Proof.Machine

/-! ## The padding rule (43_padding.md R150, R151) -/

namespace Sys2Proof.Machine

theorem padZeros_eq_imod (r m : Nat) : padZeros r m = imod (-(m : Int) - 2) r := rfl

@[simp] theorem length_pad (r m : Nat) : (pad r m).length = padZeros r m + 2 := by simp [pad]

section
variable {r : Nat} (m : Nat) (hr : 0 < r)
include hr

/-- The floored modulus of R150 in natural numbers: the zeros are what the message and the first 1 leave of the last
block, but for the closing 1. -/
theorem padZeros_eq : padZeros r m = r - 1 - (m + 1) % r := by
  have hneg : -(m : Int) - 2 = Int.negSucc (m + 1) := by omega
  have hlt := Nat.mod_lt (m + 1) hr
  rw [padZeros, hneg, Int.negSucc_emod _ (Int.natCast_pos.2 hr), ← Int.natCast_emod]
  omega

/-- The padded message is whole blocks, `floor((m+1)/r) + 1` of them. -/
theorem add_length_pad : m + (pad r m).length = r * ((m + 1) / r + 1) := by
  have hdiv := Nat.div_add_mod (m + 1) r
  have hlt := Nat.mod_lt (m + 1) hr
  rw [length_pad, padZeros_eq m hr, Nat.mul_succ]
  omega

variable {m}

/-- Where both 1 bits fit into the message's last block, the zeros fill the rest of it. -/
theorem padZeros_of_lt (hfit : m % r + 1 < r) : padZeros r m = r - 2 - m % r := by
  rw [padZeros_eq m hr, ← Nat.mod_add_mod, Nat.mod_eq_of_lt hfit]
  omega

/-- Where only the first 1 fits, the closing 1 ends a block of its own. -/
theorem padZeros_of_eq (hfull : m % r + 1 = r) : padZeros r m = r - 1 := by
  rw [padZeros_eq m hr, ← Nat.mod_add_mod, hfull, Nat.mod_self, Nat.sub_zero]

end

/-- Settles O21: the padded message is a product of the rate and the number of blocks, and the corner lengths are the
cases of whether the closing 1 still fits into the block of the first. -/
theorem paddingFillsToAMultipleOfTheRate : Obligations.PaddingFillsToAMultipleOfTheRate := by
  intro r m hr
  refine ⟨padZeros r m, padZeros_eq_imod r m, imod_lt _ hr, rfl, ?_, ?_, fun h => ?_, padZeros_of_eq hr,
    fun h hr2 => ?_⟩
  · rw [add_length_pad m hr, Nat.mul_mod_right]
  · rw [add_length_pad m hr, Nat.mul_div_cancel_left _ hr]
  · rw [padZeros_of_lt hr (by omega)]
    omega
  · rw [padZeros_of_lt hr (by omega), h, Nat.sub_zero]

end Sys2Proof.Machine

/-! ## The sponge construction (44_sponge.md R161 to R168) -/

namespace Sys2Proof.Machine

/-! ### Absorbing (44_sponge.md R161) -/

section
variable {b : Nat} (f : BitVec b → BitVec b) (r : Nat) (P : List Bool)

/-- One more block is the next `r` bits of the sequence, after the blocks before it. -/
theorem blocksOf_succ_last (n : Nat) : blocksOf r (n + 1) P = blocksOf r n P ++ [(P.drop (n * r)).take r] := by
  induction n generalizing P with
  | zero => simp [blocksOf]
  | succ n ih =>
    rw [blocksOf, ih, blocksOf, List.drop_drop, Nat.succ_mul, Nat.add_comm r, List.cons_append]

/-- The state after the first `n` blocks of `P` are absorbed, from the all-zero state. -/
def absorbedBlocks (n : Nat) : BitVec b := (blocksOf r n P).foldl (absorbBlock f) 0

@[simp] theorem absorbedBlocks_zero : absorbedBlocks f r P 0 = 0 := rfl

theorem absorbedBlocks_succ (n : Nat) : absorbedBlocks f r P (n + 1) =
    absorbBlock f (absorbedBlocks f r P n) ((P.drop (n * r)).take r) := by
  rw [absorbedBlocks, blocksOf_succ_last, List.foldl_append]
  rfl

theorem absorbPadded_eq_absorbedBlocks : absorbPadded f r P = absorbedBlocks f r P (P.length / r) := rfl

/-- Bit `k` of block `n` is bit `n*r + k` of the sequence, and a block has no bit from `r` on. -/
theorem getD_block (n k : Nat) :
    ((P.drop (n * r)).take r).getD k false = (decide (k < r) && P.getD (n * r + k) false) := by
  rw [List.getD, List.getElem?_take]
  by_cases hk : k < r
  · rw [if_pos hk, List.getElem?_drop, decide_eq_true hk, Bool.true_and, List.getD]
  · rw [if_neg hk, decide_eq_false hk, Bool.false_and, Option.getD_none]

/-- The argument of `f` at block `n`: the block is xor-ed into the first `r` bits, the others stay (44_sponge.md
R168). -/
theorem getLsbD_xor_block (S : BitVec b) (n : Nat) {k : Nat} (hk : k < b) :
    (S ^^^ ofBits b ((P.drop (n * r)).take r)).getLsbD k =
      (S.getLsbD k ^^ (decide (k < r) && P.getD (n * r + k) false)) := by
  rw [BitVec.getLsbD_xor, getLsbD_ofBits, decide_eq_true hk, Bool.true_and, getD_block]

end

/-- Settles O22: the padding fills `n = (|N|+1)/r + 1` blocks, and the states are those after the first `i` of them. -/
theorem absorbIteratesOverTheBlocks : Obligations.AbsorbIteratesOverTheBlocks := by
  intro b r f N hr _
  have hlen : (N ++ pad r N.length).length = r * ((N.length + 1) / r + 1) := by
    rw [List.length_append, add_length_pad _ hr]
  refine ⟨(N.length + 1) / r + 1, Nat.succ_pos _, hlen.trans (Nat.mul_comm _ _),
    absorbedBlocks f r (N ++ pad r N.length), absorbedBlocks_zero .., ?_, fun i _ => ?_⟩
  · rw [absorb, absorbPadded_eq_absorbedBlocks, hlen, Nat.mul_div_cancel_left _ hr]
  · exact ⟨_, absorbedBlocks_succ .., fun k hk => getLsbD_xor_block _ _ _ _ hk⟩

/-! ### Squeezing (44_sponge.md R162, R166) -/

section
variable {b r d : Nat} (f : BitVec b → BitVec b) (hr : 0 < r) (S : BitVec b)
include hr

/-- Bit `k` of the squeeze loop, given appends enough: a bit of the first append, or bit `k - r` of the loop from
`f S`. -/
theorem getElem?_squeezeLoop {n k : Nat} (hn : d < n) (hk : k < d) :
    (squeezeLoop f r n d S)[k]? = some ((f^[k / r] S).getLsbD (k % r)) := by
  induction n generalizing d k S with
  | zero => omega
  | succ n ih =>
    rw [squeezeLoop]
    by_cases hkr : k < r
    · rw [List.getElem?_append_left (by rwa [length_bitsFrom]), getElem?_bitsFrom _ _ hkr, Nat.div_eq_of_lt hkr,
        Nat.mod_eq_of_lt hkr, Function.iterate_zero_apply]
    · have hrk : r ≤ k := Nat.le_of_not_lt hkr
      rw [if_neg (by omega), List.getElem?_append_right (by rwa [length_bitsFrom]), length_bitsFrom,
        ih (f S) (by omega) (by omega), ← Function.iterate_succ_apply, ← Nat.mod_eq_sub_mod hrk,
        Nat.div_eq_sub_div hr hrk]

theorem getElem?_squeeze {k : Nat} (hk : k < d) :
    (squeeze f r d S)[k]? = some ((f^[k / r] S).getLsbD (k % r)) := by
  rw [squeeze, List.getElem?_take_of_lt hk, getElem?_squeezeLoop f hr S (Nat.lt_succ_self d) hk]

/-- The loop appends at least the `d` bits asked for, since each of them is there, and the rest is cut off. -/
theorem length_squeeze : (squeeze f r d S).length = d := by
  refine Nat.le_antisymm (List.length_take_le _ _) (le_of_forall_lt fun k hk => ?_)
  obtain ⟨hlt, -⟩ := List.getElem?_eq_some_iff.1 (getElem?_squeeze f hr S hk)
  exact hlt

end

/-- Settles O23: the bits of the squeeze loop, by induction on its appends. -/
theorem squeezeAppliesTheFunctionBetweenAppends : Obligations.SqueezeAppliesTheFunctionBetweenAppends :=
  fun _ _ _ f S hr => ⟨length_squeeze f hr S, fun _ hk => getElem?_squeeze f hr S hk⟩

/-- Settles O24: both outputs are squeezed from the same absorbed state, where a shorter one is a prefix. -/
theorem shorterSpongeOutputIsAPrefix : Obligations.ShorterSpongeOutputIsAPrefix :=
  fun _ _ _ _ _ _ _ hr hde => (take_squeeze _ hr hde _).symm

end Sys2Proof.Machine

/-! ## SHAKE128 (45_shake128.md R180 to R184) -/

namespace Sys2Proof.Machine

theorem State.atWidth_64 {s : State} (hw : s.width.toNat = 1600) : s.atWidth 64 := ⟨by decide, hw⟩

/-! ### The function `f` (R180) -/

/-- Where every bit is active nothing of the old `S` is left. -/
theorem putArray_of_all_active {w : Nat} (hw : 1600 ≤ 25 * w) (A : Lanes w) (S : BitVec 1600) :
    putArray A S = toSequence 1600 A := by
  rw [putArray, BitVec.ushiftRight_eq_zero hw, BitVec.zero_shiftLeft, BitVec.zero_or]

/-- KECCAKP 24 at width 1600 replaces `S` by `f(S)` (42_round_permutation.md R143). -/
theorem exec_keccakp_24 {s : State} (hw : s.width.toNat = 1600) :
    exec (.keccakp 24) s = .next { s.finish with S := keccakF s.S } := by
  rw [exec_permutation_atWidth rfl (State.atWidth_64 hw), putArray_of_all_active le_rfl]
  rfl

theorem keccakTimes_succ (n : Nat) (S : BitVec 1600) : keccakTimes (n + 1) S = keccakTimes n (keccakF S) := rfl

theorem keccakTimes_eq_iterate (n : Nat) (S : BitVec 1600) : keccakTimes n S = keccakF^[n] S := by
  induction n generalizing S with
  | zero => rfl
  | succ n ih => rw [keccakTimes_succ, ih, Function.iterate_succ_apply]

/-- Settles O27: what KECCAKP 24 leaves in `S` is the first of the `n+1` applications. -/
theorem keccakTimesIsKeccakpTwentyFour : Obligations.KeccakTimesIsKeccakpTwentyFour :=
  fun s n hw => ⟨_, exec_keccakp_24 hw, rfl, keccakTimes_succ n s.S⟩

/-! ### The digest bit by bit (R181, R184) -/

/-- Bit `j` of byte `k` of a packed sequence is the bit at `8k+j` (40_bit_buffer.md R101). -/
theorem getLsbD_packedByte (X : List Bool) (k : Nat) {j : Nat} (hj : j < 8) :
    (ofBits 8 ((X.drop (8 * k)).take 8)).getLsbD j = X.getD (8 * k + j) false := by
  rw [getLsbD_ofBits, Nat.mul_comm 8 k, getD_block, decide_eq_true hj, Bool.true_and, Bool.true_and]

theorem State.msgBytes_zero (s : State) (n : Nat) : s.msgBytes 0 n = (List.range n).map s.msgByte :=
  List.map_congr_left fun m _ => by rw [Nat.zero_add]

/-- The bits SHAKE128 squeezes for the command's two lengths (R181). -/
def State.digestBits (s : State) : List Bool :=
  shake128 (bitsOf ((List.range s.mlen.toNat).map s.msgByte)) (8 * s.dlen.toNat)

theorem State.digest_eq_packBytes (s : State) :
    s.digest s.mlen.toNat s.dlen.toNat = packBytes s.dlen.toNat s.digestBits := by
  rw [State.digest, State.msgBytes_zero, State.digestBits]

theorem State.getLsbD_outByte_shakeDone {s : State} {k j : Nat} (hk : k < s.dlen.toNat) (hj : j < 8) :
    (s.shakeDone.outByte k).getLsbD j = s.digestBits.getD (8 * k + j) false := by
  have hbyte := State.outByte_shakeDone_low hk
  rw [State.digest_eq_packBytes, getElem?_packBytes _ _ hk] at hbyte
  rw [Option.some.inj hbyte, getLsbD_packedByte _ _ hj]

/-- Settles O25: the command's result is `shakeDone`, whose new bytes are the digest's. -/
theorem shakeWritesTheDigest : Obligations.ShakeWritesTheDigest := by
  refine ⟨decode_encode (i := .shake128) rfl, fun s hw hm hd => ?_⟩
  exact ⟨_, exec_shake128_of_checks hw hm hd, rfl, fun k hk j hj => State.getLsbD_outByte_shakeDone hk hj,
    fun k hk => State.outByte_shakeDone_high hk, s.shakeDone_busy,
    fun hf => State.statusWord_eq_zero s.shakeDone_busy hf⟩

/-! ### Blocks xor-ed in byte by byte (R182) -/

/-- Replacing byte `n` by its xor with `v` flips the bits of `v`, at their places in that byte. -/
theorem getLsbD_setStByte_xor (S : BitVec 1600) (n : Nat) (v : Byte) {i : Nat} (hi : i < 1600) :
    (setStByte S n (stByte S n ^^^ v)).getLsbD i = (S.getLsbD i ^^ (decide (i / 8 = n) && v.getLsbD (i % 8))) := by
  rw [getLsbD_setStByte _ _ _ hi]
  by_cases hn : i / 8 = n
  · subst hn
    have hj : i % 8 < 8 := Nat.mod_lt _ (by decide)
    rw [if_pos (by omega), show i - 8 * (i / 8) = i % 8 by omega, BitVec.getLsbD_xor, getLsbD_stByte _ _ hj,
      Nat.div_add_mod, decide_eq_true rfl, Bool.true_and]
  · rw [if_neg (by omega), decide_eq_false hn, Bool.false_and, Bool.xor_false]

/-- Once the first `n` bytes are xor-ed in, each of their bits is, and the others are as they were. -/
theorem getLsbD_foldl_setStByte_xor (block : Nat → Byte) (S : BitVec 1600) (n : Nat) {i : Nat} (hi : i < 1600) :
    ((List.range n).foldl (fun S k => setStByte S k (stByte S k ^^^ block k)) S).getLsbD i =
      (S.getLsbD i ^^ (decide (i / 8 < n) && (block (i / 8)).getLsbD (i % 8))) := by
  induction n with
  | zero => simp
  | succ n ih =>
    rw [List.range_succ, List.foldl_append, List.foldl_cons, List.foldl_nil, getLsbD_setStByte_xor _ _ _ hi, ih]
    rcases Nat.lt_trichotomy (i / 8) n with h | rfl | h
    · simp [h, h.ne, Nat.lt_succ_of_lt h]
    · simp
    · simp [h.not_gt, h.ne', Nat.not_lt.2 h]

/-- A block whose bits are those of the bytes, xor-ed in at once as the sponge does (44_sponge.md R161). -/
theorem xorBlock_eq_xor_ofBits {block : Nat → Byte} {X : List Bool}
    (hX : ∀ k, X.getD k false = (decide (k < 1344) && (block (k / 8)).getLsbD (k % 8))) (S : BitVec 1600) :
    xorBlock block S = S ^^^ ofBits 1600 X := by
  refine BitVec.eq_of_getLsbD_eq fun i hi => ?_
  have hbyte : i / 8 < 168 ↔ i < 1344 := by omega
  rw [xorBlock, getLsbD_foldl_setStByte_xor _ _ _ hi, BitVec.getLsbD_xor, getLsbD_ofBits, hX, decide_eq_true hi,
    Bool.true_and, decide_eq_decide.2 hbyte]

/-! ### The padded message (R182) -/

/-- The suffix 1111, the padding's 1, and its zeros up to the last bit of the block that holds byte `MLEN`. -/
theorem shakeSuffix_append_pad (mlen : Nat) : shakeSuffix ++ pad shakeRate (8 * mlen + 4) =
    List.replicate 5 true ++ (List.replicate (1338 - 8 * (mlen % 168)) false ++ [true]) := by
  have hzeros : padZeros shakeRate (8 * mlen + 4) = 1338 - 8 * (mlen % 168) := by
    rw [padZeros_eq _ (by decide), shakeRate]
    omega
  rw [pad, hzeros]
  rfl

/-- The message's bits followed by the suffix and the padding. -/
def shakePadded (message : Nat → Byte) (mlen : Nat) : List Bool :=
  bitsOf ((List.range mlen).map message) ++ (shakeSuffix ++ pad shakeRate (8 * mlen + 4))

theorem length_bitsOf_range (message : Nat → Byte) (mlen : Nat) :
    (bitsOf ((List.range mlen).map message)).length = 8 * mlen := by
  rw [length_bitsOf, List.length_map, List.length_range]

theorem length_shakePadded (message : Nat → Byte) (mlen : Nat) :
    (shakePadded message mlen).length = shakeRate * (mlen / 168 + 1) := by
  have hblocks := add_length_pad (r := shakeRate) (8 * mlen + 4) (by decide)
  rw [shakePadded, List.length_append, length_bitsOf_range, List.length_append, ← Nat.add_assoc]
  exact hblocks.trans (by rw [shakeRate]; omega)

theorem getD_shakePadded_message (message : Nat → Byte) {mlen i : Nat} (hi : i < 8 * mlen) :
    (shakePadded message mlen).getD i false = (message (i / 8)).getLsbD (i % 8) := by
  have hbyte : ((List.range mlen).map message)[i / 8]? = some (message (i / 8)) := by
    rw [List.getElem?_map, List.getElem?_range (by omega), Option.map_some]
  have hbit := getElem?_bitsOf hbyte (Nat.mod_lt i (by decide))
  rw [Nat.div_add_mod] at hbit
  rw [shakePadded, List.getD_append _ _ _ _ (by rwa [length_bitsOf_range]), List.getD_eq_getElem?_getD, hbit,
    Option.getD_some]

theorem getD_zeros_one (z i : Nat) : (List.replicate z false ++ [true]).getD i false = decide (i = z) := by
  induction z generalizing i with
  | zero => cases i <;> simp
  | succ z ih =>
    cases i with
    | zero => simp [List.replicate_succ]
    | succ i => simpa [List.replicate_succ] using ih i

theorem getD_ones_zeros_one (n z i : Nat) :
    (List.replicate n true ++ (List.replicate z false ++ [true])).getD i false = decide (i < n ∨ i = n + z) := by
  by_cases hn : i < n
  · rw [List.getD_append _ _ _ _ (by rwa [List.length_replicate]), List.getD_replicate _ hn,
      decide_eq_true (.inl hn)]
  · rw [List.getD_append_right _ _ _ _ (by rw [List.length_replicate]; omega), List.length_replicate,
      getD_zeros_one, decide_eq_decide]
    omega

/-- Past the message the padded bits are five ones and the last bit of the last block. -/
theorem getD_shakePadded_past (message : Nat → Byte) {mlen i : Nat} (hi : 8 * mlen ≤ i) :
    (shakePadded message mlen).getD i false =
      decide (i < 8 * mlen + 5 ∨ i = 1344 * (mlen / 168) + 1343) := by
  have hlen := length_bitsOf_range message mlen
  rw [shakePadded, List.getD_append_right _ _ _ _ (hlen.trans_le hi), hlen, shakeSuffix_append_pad,
    getD_ones_zeros_one, decide_eq_decide]
  omega

/-- 0x1F is the suffix and the padding's first 1: bits 0 to 4. -/
theorem getLsbD_suffixByte : ∀ j < 8, (0x1F : Byte).getLsbD j = decide (j < 5) := by decide

/-- 0x80 is the padding's last 1: bit 7. -/
theorem getLsbD_lastByte : ∀ j < 8, (0x80 : Byte).getLsbD j = decide (j = 7) := by decide

theorem getLsbD_ite_zero (p : Prop) [Decidable p] (v : Byte) (j : Nat) :
    (if p then v else 0).getLsbD j = (decide p && v.getLsbD j) := by
  split <;> simp [*]

/-- Before the message's end a block's bytes are the message's: the last bit of the last block comes after it. -/
theorem shakeBlockByte_message {message : Nat → Byte} {mlen i k : Nat} (h : 168 * i + k < mlen) :
    shakeBlockByte message mlen i k = message (168 * i + k) := by
  have hlast : ¬ (i = mlen / 168 ∧ k = 167) := by omega
  rw [shakeBlockByte, if_neg hlast, if_pos h]
  exact BitVec.xor_zero

/-- From the message's end on a block's bits are those of 0x1F and 0x80, which have none in common. -/
theorem getLsbD_shakeBlockByte_past (message : Nat → Byte) {mlen i k j : Nat} (h : mlen ≤ 168 * i + k)
    (hj : j < 8) : (shakeBlockByte message mlen i k).getLsbD j =
      decide (168 * i + k = mlen ∧ j < 5 ∨ (i = mlen / 168 ∧ k = 167) ∧ j = 7) := by
  rw [shakeBlockByte, if_neg (Nat.not_lt.2 h), BitVec.getLsbD_xor, getLsbD_ite_zero, getLsbD_ite_zero,
    getLsbD_suffixByte j hj, getLsbD_lastByte j hj]
  by_cases h7 : j = 7 <;> simp [h7]

/-- The padded message's bits are those of the byte form's blocks. -/
theorem getD_shakePadded (message : Nat → Byte) {mlen i k : Nat} (hi : i ≤ mlen / 168) (hk : k < 1344) :
    (shakePadded message mlen).getD (i * 1344 + k) false =
      (shakeBlockByte message mlen i (k / 8)).getLsbD (k % 8) := by
  by_cases hm : 168 * i + k / 8 < mlen
  · have hlen : i * 1344 + k < 8 * mlen := by omega
    have hdiv : (i * 1344 + k) / 8 = 168 * i + k / 8 := by omega
    have hmod : (i * 1344 + k) % 8 = k % 8 := by omega
    rw [getD_shakePadded_message message hlen, shakeBlockByte_message hm, hdiv, hmod]
  · have hj : k % 8 < 8 := Nat.mod_lt _ (by decide)
    rw [getD_shakePadded_past message (by omega), getLsbD_shakeBlockByte_past message (Nat.le_of_not_lt hm) hj,
      decide_eq_decide]
    omega

/-! ### Absorbing and squeezing on bytes (R182) -/

/-- The sponge's states after each block are those of the byte form. -/
theorem absorbedBytes_eq_absorbedBlocks (message : Nat → Byte) {mlen n : Nat} (hn : n ≤ mlen / 168 + 1) :
    absorbedBytes message mlen n = absorbedBlocks keccakF shakeRate (shakePadded message mlen) n := by
  induction n with
  | zero => rfl
  | succ n ih =>
    have hblock : ∀ k, (((shakePadded message mlen).drop (n * shakeRate)).take shakeRate).getD k false =
        (decide (k < 1344) && (shakeBlockByte message mlen n (k / 8)).getLsbD (k % 8)) := fun k => by
      rw [getD_block, shakeRate]
      by_cases hk : k < 1344
      · rw [getD_shakePadded message (by omega) hk]
      · rw [decide_eq_false hk, Bool.false_and, Bool.false_and]
    rw [absorbedBytes, absorbedBlocks_succ, absorbBlock, ih (by omega), xorBlock_eq_xor_ofBits hblock]

/-- The state that absorbing leaves is the one after the byte form's `floor(MLEN/168) + 1` blocks. -/
theorem absorb_eq_absorbedBytes (message : Nat → Byte) (mlen : Nat) :
    absorb keccakF pad shakeRate (bitsOf ((List.range mlen).map message) ++ shakeSuffix) =
      absorbedBytes message mlen (mlen / 168 + 1) := by
  have hpadded : bitsOf ((List.range mlen).map message) ++ shakeSuffix ++
      pad shakeRate (bitsOf ((List.range mlen).map message) ++ shakeSuffix).length = shakePadded message mlen := by
    rw [List.length_append, length_bitsOf_range, List.append_assoc]
    rfl
  rw [absorb, hpadded, absorbPadded_eq_absorbedBlocks, length_shakePadded, Nat.mul_div_cancel_left _ (by decide),
    absorbedBytes_eq_absorbedBlocks message le_rfl]

/-- Eight bits squeezed at a byte's place are the byte of the window after the permutations before it. -/
theorem getD_shake128 {message : Nat → Byte} {mlen dlen k j : Nat} (hk : k < dlen) (hj : j < 8) :
    (shake128 (bitsOf ((List.range mlen).map message)) (8 * dlen)).getD (8 * k + j) false =
      (shakeOutByte message mlen k).getLsbD j := by
  have hdiv : (8 * k + j) / shakeRate = k / 168 := by rw [shakeRate]; omega
  have hmod : (8 * k + j) % shakeRate = 8 * (k % 168) + j := by rw [shakeRate]; omega
  rw [shake128, sponge, List.getD_eq_getElem?_getD, getElem?_squeeze _ (by decide) _ (by omega), Option.getD_some,
    absorb_eq_absorbedBytes, hdiv, hmod, shakeOutByte, keccakTimes_eq_iterate, getLsbD_stByte _ _ hj]

/-- Settles O26: each bit of an output byte is a squeezed bit, and the byte form has the same. -/
theorem shakeEqualsItsByteForm : Obligations.ShakeEqualsItsByteForm := by
  intro s hw hm hd
  refine ⟨_, exec_shake128_of_checks hw hm hd, fun k hk => BitVec.eq_of_getLsbD_eq fun j hj => ?_⟩
  rw [State.getLsbD_outByte_shakeDone hk hj, State.digestBits, getD_shake128 hk hj]

end Sys2Proof.Machine

/-! ## Faults (60_exceptions.md R202 to R208) -/

namespace Sys2Proof.Machine

/-! ### The checks on `WIDTH` and the lengths (R202, R204, R205) -/

theorem State.widthLegal_eq_false {s : State} :
    s.widthLegal = false ↔ s.width.toNat ∉ [25, 50, 100, 200, 400, 800, 1600] := by
  simp [State.widthLegal, legalWidths]

/-- A width that has no lane size is illegal (00_scope.md R4). -/
theorem State.widthLegal_eq_false_of_not_atWidth {s : State} (h : ∀ w, ¬ s.atWidth w) : s.widthLegal = false := by
  rw [← Bool.not_eq_true, State.widthLegal_iff]
  rintro ⟨l, hl, hw⟩
  refine h (2 ^ l) ⟨?_, hw⟩
  interval_cases l <;> decide

theorem State.outOfRange_eq_true {s : State} :
    s.outOfRange = true ↔ s.msgCap < s.mlen.toNat ∨ s.outCap < s.dlen.toNat := by
  simp [State.outOfRange]

/-- SHAKE128 is the only command that is no permutation (10_state.md R36). -/
theorem eq_shake128_of_not_permutation {i : Instr} (h : ¬ i.isPermutation = true) : i = .shake128 := by
  cases i with
  | shake128 => rfl
  | _ => exact absurd rfl h

/-- The first check of every command is that of `WIDTH` (R202). -/
theorem exec_of_illegal_width (i : Instr) {s : State} (hl : s.widthLegal = false) :
    exec i s = .next (s.raiseFatal .eWidth) := by
  by_cases hi : i.isPermutation = true
  · rw [exec_permutation hi, State.permute_illegal _ hl]
  · obtain rfl := eq_shake128_of_not_permutation hi
    have hne : s.width.toNat ≠ 1600 := fun hw => by
      simp [State.widthLegal_of_atWidth (State.atWidth_64 hw)] at hl
    rcases execShake128_cases s with ⟨-, h⟩ | ⟨h, -, -⟩ | ⟨hw, -, -⟩ | ⟨hw, -, -⟩
    · exact h
    · simp [hl] at h
    · exact absurd hw hne
    · exact absurd hw hne

/-- SHAKE128's second check: the width is legal, but not 1600 (R204). -/
theorem exec_shake128_of_narrow_width {s : State} (hl : s.widthLegal = true) (hw : s.width.toNat ≠ 1600) :
    exec .shake128 s = .next (s.raiseFatal .eUnsupported) := by
  rcases execShake128_cases s with ⟨h, -⟩ | ⟨-, -, h⟩ | ⟨h, -, -⟩ | ⟨h, -, -⟩
  · simp [hl] at h
  · exact h
  · exact absurd h hw
  · exact absurd h hw

/-- SHAKE128's third check: a length exceeds its memory (R205). -/
theorem exec_shake128_of_outOfRange {s : State} (hw : s.width.toNat = 1600) (hr : s.outOfRange = true) :
    exec .shake128 s = .next (s.raiseFatal .eRange) := by
  rcases execShake128_cases s with ⟨h, -⟩ | ⟨-, h, -⟩ | ⟨-, -, h⟩ | ⟨-, h, -⟩
  · simp [State.widthLegal_of_atWidth (State.atWidth_64 hw)] at h
  · exact absurd hw h
  · exact h
  · simp [hr] at h

/-- A command that passes all of its checks completes with no new fault (R206). -/
theorem exec_keeps_fault_of_checks {i : Instr} {s : State} {w : Nat} (h : s.atWidth w)
    (hshake : i = .shake128 → w = 64 ∧ s.mlen.toNat ≤ s.msgCap ∧ s.dlen.toNat ≤ s.outCap) :
    ∃ t, exec i s = .next t ∧ t.fault = s.fault := by
  by_cases hi : i.isPermutation = true
  · exact ⟨_, exec_permutation_atWidth hi h, rfl⟩
  · obtain rfl := eq_shake128_of_not_permutation hi
    obtain ⟨rfl, hm, hd⟩ := hshake rfl
    exact ⟨_, exec_shake128_of_checks h.2 hm hd, rfl⟩

/-! ### The accepted word -/

theorem runWord_of_decode_ok {v : Word} {i : Instr} (h : decode v = .ok i) (s : State) :
    runWord v s = exec i s := by
  rw [runWord, h]

/-- A reserved word faults (R203). -/
theorem runWord_of_decode_error {v : Word} {e : Reserved} (h : decode v = .error e) (s : State) :
    runWord v s = .next (s.raiseFatal .eOpcode) := by
  rw [runWord, h]

/-- A word that matches no row of the opcode map is reserved (30_encoding.md R83, R84). -/
theorem decode_eq_error_of_no_row {v : Word} (h : ∀ row ∈ opcodeRows, v &&& row.mask ≠ row.pattern) :
    ∃ e, decode v = .error e := by
  cases hd : decode v with
  | error e => exact ⟨e, rfl⟩
  | ok i =>
    obtain ⟨-, hrow, -⟩ := wordIsCommandOfRowIffItMatches
    obtain ⟨k, row, hk, hv, -⟩ := (hrow v i).1 hd
    exact absurd hv (h row (List.mem_of_getElem? hk))

/-- An accepted word faults and changes nothing else, or leaves the fault as it was. -/
theorem runWord_faults_or_keeps_fault (v : Word) (s : State) :
    (∃ c, runWord v s = .next (s.raiseFatal c)) ∨ ∃ t, runWord v s = .next t ∧ t.fault = s.fault := by
  rcases runWord_cases v s with ⟨i, -, hr⟩ | ⟨e, -, hr⟩
  · rw [hr]
    rcases exec_cases i s with ⟨c, he⟩ | ⟨-, -, S', he⟩ | ⟨-, -, -, he⟩
    · exact .inl ⟨c, he⟩
    · exact .inr ⟨_, he, rfl⟩
    · exact .inr ⟨_, he, rfl⟩
  · exact .inl ⟨_, hr⟩

/-- When the host does not move, a command is running and the step is its word's meaning. -/
theorem step_eq_runWord_of_not_hostMoves {s : State} (hm : s.hostMoves = false) :
    ∃ v n, s.seq = .running v n ∧ step s = runWord v s := by
  rcases step_cases s with ⟨v, n, hs, -, -, he⟩ | ⟨hm', -⟩ | ⟨hs, -⟩
  · exact ⟨v, n, hs, he⟩
  · simp [hm] at hm'
  · simp [State.hostMoves_of_idle hs] at hm

/-- The same for a word known to be running. -/
theorem step_eq_runWord_of_running {s : State} {v : Word} {n : Nat} (hs : s.seq = .running v n)
    (hm : s.hostMoves = false) : step s = runWord v s := by
  obtain ⟨v', n', hs', he⟩ := step_eq_runWord_of_not_hostMoves hm
  obtain ⟨rfl, -⟩ : v' = v ∧ n' = n := by simpa [hs'] using hs
  exact he

/-! ### `STATUS` once a fault is taken (R207) -/

theorem State.statusWord_raiseFatal (s : State) (c : Cause) :
    (s.raiseFatal c).statusWord.toNat = 256 * c.code.toNat + 2 := by
  rw [State.statusWord, State.raiseFatal_busy, State.raiseFatal_fatal, State.raiseFatal_causeCode]
  cases c <;> rfl

/-! ### Accesses while a fault is held (R208) -/

/-- While idle a write to a control register stores the value and changes nothing else. -/
theorem access_regWrite_control {s : State} {off : Nat} (v : Word) (hb : s.busy = false)
    (hoff : off ∈ [0x08, 0x0C, 0x10]) : access (.regWrite off v) s = .next { s with
      width := if off = 0x08 then v else s.width
      mlen := if off = 0x0C then v else s.mlen
      dlen := if off = 0x10 then v else s.dlen } := by
  obtain ⟨hle, h4⟩ := control_offset_aligned hoff
  rw [access_regWrite hle h4, State.regWrite_control v hb hoff]

/-- While `FATAL = 1` no access starts a command, and none but reset touches the fault. -/
theorem access_of_fatal {s t : State} {h : HostAccess} (hs : s.seq = .idle) (hf : s.fatal = true)
    (he : access h s = .next t) : t.seq = .idle ∧ (h ≠ .reset → t.fault = s.fault) := by
  rcases access_cases he with ⟨-, d, n, -, rfl⟩ | ⟨off, v, -, rfl⟩ | ⟨sp, a, n, v, -, -, rfl⟩ | ⟨hreset, rfl⟩
  · exact ⟨hs, fun _ => rfl⟩
  · rcases s.regWrite_cases off v with ⟨a, b, c, hw⟩ | ⟨-, -, hnf, -⟩
    · rw [hw]; exact ⟨hs, fun _ => rfl⟩
    · simp [hf] at hnf
  · obtain ⟨S', m, o, hw, -⟩ := State.writeBytes_frame sp n a v s
    rw [hw]; exact ⟨hs, fun _ => rfl⟩
  · exact ⟨rfl, fun hne => absurd hreset hne⟩

/-- While idle a write of one byte of the bus word `v` is read back at its address. -/
theorem byteAt_of_access_write_byte {s t : State} {sp : Space} {a v : Nat} (hb : s.busy = false)
    (ha : a < s.spaceSize sp) (he : access (.write sp a 1 v) s = .next t) : t.byteAt sp a = BitVec.ofNat 8 v := by
  obtain rfl := Host.Outcome.next.inj ((access_write v ha).symm.trans he)
  rw [State.writeBytes, State.writeBytes, State.writeByte_of_idle sp a _ hb, State.byteAt_setByte_self s _ ha]

/-! ### The obligations on faults -/

/-- Settles O29: `WIDTH` is checked first by every command, and its write makes no check. -/
theorem illegalWidthFaultsEveryCommand : Obligations.IllegalWidthFaultsEveryCommand := by
  refine ⟨fun i s hw => exec_of_illegal_width i (State.widthLegal_eq_false.2 hw), fun s v rest hs hh => ?_⟩
  exact (step_eq_access_of_idle hs hh).trans (access_regWrite_control v (State.busy_eq_false.2 hs) (by decide))

/-- Settles O30: the word does not decode, and while the host polls the engine moves next. -/
theorem wordMatchingNoRowFaults : Obligations.WordMatchingNoRowFaults := by
  refine ⟨fun s v n hs hm hrow => ?_, fun s v rest hb hf hrow hh => ?_⟩
  · obtain ⟨e, hd⟩ := decode_eq_error_of_no_row hrow
    exact (step_eq_runWord_of_running hs hm).trans (runWord_of_decode_error hd s)
  · obtain ⟨e, hd⟩ := decode_eq_error_of_no_row hrow
    have hidle : s.seq = .idle := State.busy_eq_false.1 hb
    obtain ⟨hissue, -⟩ := cmdWriteIssuesTheWord.1 s v (.poll :: rest) (State.hostMoves_of_idle hidle) hh
    obtain ⟨n, hn⟩ := hissue hb hf
    refine ⟨_, hn, ?_⟩
    rw [step_eq_runWord (w := v) (n := n) rfl rfl, runWord_of_decode_error hd, State.raiseFatal, State.finish, ← hidle]

/-- Settles O33: the write that is ignored, then one lemma per check of the accepted word. -/
theorem checksAreMadeInTheFixedOrder : Obligations.ChecksAreMadeInTheFixedOrder := by
  refine ⟨fun s v rest hm hh hbusy => ?_, fun s v n hs hm => ?_⟩
  · obtain ⟨-, hignored⟩ := cmdWriteIssuesTheWord.1 s v rest hm hh
    exact hignored hbusy.symm
  · rw [step_eq_runWord_of_running hs hm]
    refine ⟨fun e hd => runWord_of_decode_error hd s, fun i hd hw => ?_, fun w hd hw hne => ?_,
      fun hd hw hr => ?_, fun i w hd hw hshake => ?_⟩ <;> rw [runWord_of_decode_ok hd]
    · exact exec_of_illegal_width i (State.widthLegal_eq_false_of_not_atWidth hw)
    · exact exec_shake128_of_narrow_width (State.widthLegal_of_atWidth hw) (by have := hw.2; omega)
    · exact exec_shake128_of_outOfRange hw.2 (State.outOfRange_eq_true.2 hr)
    · exact exec_keeps_fault_of_checks hw hshake

/-- Settles O34: a step that changes the fault is a word run that took one. -/
theorem faultChangesStatusAlone : Obligations.FaultChangesStatusAlone := by
  intro s t hm ht hne
  obtain ⟨v, n, -, hv⟩ := step_eq_runWord_of_not_hostMoves hm
  rcases runWord_faults_or_keeps_fault v s with ⟨c, hc⟩ | ⟨u, hu, hkept⟩
  · obtain rfl := Host.Outcome.next.inj (hc.symm.trans (hv.symm.trans ht))
    exact ⟨c, rfl, rfl, rfl, rfl, s.statusWord_raiseFatal c⟩
  · obtain rfl := Host.Outcome.next.inj (hu.symm.trans (hv.symm.trans ht))
    exact absurd hkept hne

/-- Settles O35: the step is the host's access, and each kind of access does what it does without a fault. -/
theorem onlyResetClearsAFault : Obligations.OnlyResetClearsAFault := by
  intro s c h rest hc hs hh hl
  have hb : State.busy { s with host := rest } = false := State.busy_eq_false.2 hs
  have hf : State.fatal { s with host := rest } = true := Option.isSome_of_eq_some hc
  replace hl : HostAccess.legal { s with host := rest } h = true := (HostAccess.legal_congr (s := s) rfl h).trans hl
  obtain ⟨t, ht⟩ := access_legal hl
  have eq_of_access {u : State} (hu : access h { s with host := rest } = .next u) : t = u :=
    Host.Outcome.next.inj (ht.symm.trans hu)
  obtain ⟨hidle, hkept⟩ := access_of_fatal (s := { s with host := rest }) hs hf ht
  obtain ⟨hhost, -⟩ := access_keeps_host ht
  refine ⟨t, (step_eq_access_of_idle hs hh).trans ht, hidle, hhost, fun hne => (hkept hne).trans hc,
    ?_, ?_, ?_, ?_, ?_, ?_, ?_, ?_⟩
  · rintro rfl; rw [eq_of_access rfl, State.resetEvent_fault]
  · rintro v rfl
    rw [eq_of_access (access_regWrite (by decide) (by decide) v _), State.regWrite_cmd_ignored v (.inr hf)]
  · rintro v rfl; exact eq_of_access (access_regWrite_control v hb (by decide))
  · rintro v rfl; exact eq_of_access (access_regWrite_control v hb (by decide))
  · rintro v rfl; exact eq_of_access (access_regWrite_control v hb (by decide))
  · rintro sp a v rfl; exact byteAt_of_access_write_byte hb (HostAccess.legal_write.1 hl) ht
  · rintro sp a rfl; rw [eq_of_access (access_read_byte_of_idle hb (HostAccess.legal_read.1 hl))]; rfl
  · rintro off rfl; exact readData_of_access_regRead (s := { s with host := rest }) hl ht

/-- Settles O31: each of the six widths is legal and none is 1600. -/
theorem shakeAtANarrowWidthFaults : Obligations.ShakeAtANarrowWidthFaults := by
  intro s hw
  have hne : s.width.toNat ≠ 1600 := by
    intro h
    rw [h] at hw
    exact absurd hw (by decide)
  have hl : s.widthLegal = true := by
    rw [← Bool.not_eq_false, State.widthLegal_eq_false, not_not]
    exact List.mem_append_left [1600] hw
  exact exec_shake128_of_narrow_width hl hne

/-- Settles O32: the range check fails or passes, and after it there is no other. -/
theorem shakeBeyondTheMemoriesFaults : Obligations.ShakeBeyondTheMemoriesFaults :=
  fun _ hw => ⟨fun hr => exec_shake128_of_outOfRange hw (State.outOfRange_eq_true.2 hr),
    fun hr => exec_keeps_fault_of_checks (State.atWidth_64 hw) fun _ => ⟨rfl, hr⟩⟩

end Sys2Proof.Machine

/-! ## Every command ends (10_state.md R29, 70_reset_and_hazards.md R241, R242) -/

namespace Sys2Proof.Machine

/-! ### One command -/

/-- Settles O37: by a fault, with `S` replaced, or with SHAKE128 done, the sequencer is idle. -/
theorem everyCommandCompletes : Obligations.EveryCommandCompletes := by
  intro i s
  rcases exec_cases i s with ⟨c, he⟩ | ⟨-, -, S', he⟩ | ⟨-, -, -, he⟩
  · exact ⟨_, he, s.raiseFatal_busy c⟩
  · exact ⟨_, he, rfl⟩
  · exact ⟨_, he, rfl⟩

/-- An accepted word completes too: a reserved one by its fault (30_encoding.md R84). -/
theorem runWord_completes (v : Word) (s : State) : ∃ t, runWord v s = .next t ∧ t.busy = false := by
  rcases runWord_cases v s with ⟨i, -, hr⟩ | ⟨e, -, hr⟩
  · exact hr ▸ everyCommandCompletes i s
  · exact ⟨_, hr, s.raiseFatal_busy .eOpcode⟩

/-! ### A running command and the accesses that land first -/

/-- With no access left to land the engine moves, whatever the host has yet to do. -/
theorem engineNext_zero (host : List HostAccess) : engineNext host 0 = true := by
  unfold engineNext
  split <;> rfl

/-- When the host moves while a command runs, at least one access was left to land. -/
theorem turns_ne_zero_of_hostMoves {s : State} {v : Word} {n : Nat} (hs : s.seq = .running v n)
    (hm : s.hostMoves = true) : n ≠ 0 := by
  rintro rfl
  simp [State.hostMoves, hs, engineNext_zero] at hm

/-- An access made while a command runs leaves the sequencer as it is, unless it is a reset, which ends the command
(20_memory.md R59, 70_reset_and_hazards.md R231). -/
theorem access_ends_or_keeps_seq {s t : State} {h : HostAccess} (hb : s.busy = true) (he : access h s = .next t) :
    t.busy = false ∨ t.seq = s.seq := by
  by_cases hr : h = .reset
  · subst hr
    obtain rfl := Host.Outcome.next.inj he
    exact .inl rfl
  · rw [access_frame_of_busy hb hr he]
    exact .inr rfl

/-- A step while a command runs ends the command or uses up one of the accesses left to land. -/
theorem step_ends_or_lands {s t : State} {v : Word} {n : Nat} (hs : s.seq = .running v n) (he : step s = .next t) :
    t.busy = false ∨ ∃ m, n = m + 1 ∧ t.seq = .running v m := by
  rcases step_cases s with ⟨w, -, -, -, -, hw⟩ | ⟨hm, h, rest, -, ha⟩ | ⟨hidle, -⟩
  · obtain ⟨u, hu, hbusy⟩ := runWord_completes w s
    obtain rfl := Host.Outcome.next.inj (hu.symm.trans (hw.symm.trans he))
    exact .inl hbusy
  · have hb : State.busy { s with host := rest, seq := s.seq.landed } = true :=
      (s.busy_landed rest).trans (State.busy_of_running hs)
    refine (access_ends_or_keeps_seq hb (ha.symm.trans he)).imp_right fun hseq => ?_
    obtain ⟨m, rfl⟩ := Nat.exists_eq_succ_of_ne_zero (turns_ne_zero_of_hostMoves hs hm)
    exact ⟨m, rfl, hseq.trans (by rw [hs]; rfl)⟩
  · simp [hidle] at hs

/-! ### Runs of several steps -/

theorem runSteps_succ {s t : State} (he : step s = .next t) (k : Nat) : runSteps (k + 1) s = runSteps k t := by
  rw [runSteps, he]

/-- Settles O43, by induction on the accesses left to land: each step is legal, and ends the command or leaves one
access fewer. -/
theorem busyEndsAfterFinitelyManySteps : Obligations.BusyEndsAfterFinitelyManySteps := by
  intro s v n hs hl
  induction n generalizing s with
  | zero =>
    obtain ⟨t, ht, -, -⟩ := legalHostNeverStopsTheMachine s hl
    rcases step_ends_or_lands hs ht with hbusy | ⟨m, hm, -⟩
    · exact ⟨1, le_rfl, t, runSteps_succ ht 0, hbusy⟩
    · cases hm
  | succ n ih =>
    obtain ⟨t, ht, hlt, -⟩ := legalHostNeverStopsTheMachine s hl
    rcases step_ends_or_lands hs ht with hbusy | ⟨m, hm, hseq⟩
    · exact ⟨1, by omega, t, runSteps_succ ht 0, hbusy⟩
    · obtain rfl := Nat.succ.inj hm
      obtain ⟨k, hk, u, hu, hbusy⟩ := ih t hseq hlt
      exact ⟨k + 1, by omega, u, (runSteps_succ ht k).trans hu, hbusy⟩

end Sys2Proof.Machine
